-- ==== Sys2Proof/Word.lean ====
section
/-! DEFINITION. The word types of the IGT block: every width the spec gives a register, an operand or an output
(10_state.md R10, 30_encoding.md R61, 20_memory.md R40). All values are unsigned (00_scope.md R7). -/
namespace Sys2Proof

/-- One segment pattern, one byte of DIG, or the `d` field of an operation word (R4, R61). -/
abbrev Byte := BitVec 8

/-- One operation word, the only length (30_encoding.md R61). -/
abbrev OpWord := BitVec 16

/-- A captured timestamp, EXT :: CNT (10_state.md R16). -/
abbrev Timestamp := BitVec 24

/-- The 32-bit value a host read returns, and the width of the converter's arithmetic (R140, R110). -/
abbrev Word32 := BitVec 32

/-- One bit per digit position: MASK and SEL_OUT (10_state.md R24, R26). -/
abbrev SelectMask := BitVec 7

end Sys2Proof
end

