-- ==== Sys2Proof/Syntax.lean ====
section
/-! DEFINITION. The operations of the IGT block, one constructor for each row of spec/opcode_table.json
(30_encoding.md R60, R64), and the pin events as the pins deliver them. -/
namespace Sys2Proof

/-- The twelve operations. Operands stand as the word holds them (R61, R63): `rr` a register number, `i` the four
bits of the index field, `dd` a data byte. -/
inductive Instr where
  | rd (rr : BitVec 8)                    -- RD, R140
  | wrdig (i : BitVec 4) (dd : Byte)      -- WRDIG, R141
  | cmt (i : BitVec 4)                    -- CMT, R142
  | conv                                  -- CONV, R100
  | clrp                                  -- CLRP, R143
  | tkrst                                 -- TKRST, R121
  | ctk                                   -- CTK, R80
  | ovs                                   -- OVS, R81
  | ign                                   -- IGN, R82
  | crk                                   -- CRK, R83
  | rtk                                   -- RTK, R120
  | rst                                   -- RST, R180
deriving DecidableEq, Repr

/-- The six input events. A pin event is an operation and carries no data (20_memory.md R40 c). -/
inductive PinEvent where
  | countTick
  | overflowService
  | ignitionEdge
  | crankEdge
  | refreshTick
  | reset
deriving DecidableEq, Repr

end Sys2Proof
end

