-- ==== Sys2Proof/WellFormed.lean ====
section
/-! DEFINITION. Which terms of `Instr` the encoding has a word for: the index of WRDIG and CMT is 0 to 6
(30_encoding.md R62, R66). RD of any register number is well formed, an unimplemented one too (R66). -/
namespace Sys2Proof

/-- The index range of formats I and W. -/
def indexInRange (i : BitVec 4) : Bool := decide (i.toNat ≤ 6)

def Instr.wellFormed : Instr → Bool
  | .rd _ => true
  | .wrdig i _ => indexInRange i
  | .cmt i => indexInRange i
  | .conv => true
  | .clrp => true
  | .tkrst => true
  | .ctk => true
  | .ovs => true
  | .ign => true
  | .crk => true
  | .rtk => true
  | .rst => true

end Sys2Proof
end

