-- ==== Sys2Proof/Decode.lean ====
section
/-! DEFINITION. Decoding an operation word, total and by name where it rejects (30_encoding.md R61 to R66), the
encoder, the two operation classes (R60), and the opcode table as the spec prints it (R64). -/
namespace Sys2Proof

/-- Why a word is reserved (R66): its operation code, a must-be-zero field, or an index of 7 to 15. Where a CMT word
fails two checks, the index is named; R66 calls the word reserved either way. -/
inductive Reserved where
  | opcode
  | field
  | index
deriving DecidableEq, Repr

/-- Bits 15:12 (R61). -/
def opField (w : OpWord) : BitVec 4 := w.extractLsb' 12 4

/-- Bits 11:8 (R61). -/
def aField (w : OpWord) : BitVec 4 := w.extractLsb' 8 4

/-- Bits 7:0 (R61). -/
def dField (w : OpWord) : Byte := w.extractLsb' 0 8

/-- Format Z: both `a` and `d` must be 0 (R62). -/
def decodeZ (i : Instr) (w : OpWord) : Except Reserved Instr :=
  if aField w = 0 ∧ dField w = 0 then .ok i else .error .field

/-- Format R: `a` must be 0 and `d` is the register number (R62). -/
def decodeR (w : OpWord) : Except Reserved Instr :=
  if aField w = 0 then .ok (.rd (dField w)) else .error .field

/-- Format W: an index 0 to 6 and a data byte (R62). -/
def decodeW (w : OpWord) : Except Reserved Instr :=
  if indexInRange (aField w) then .ok (.wrdig (aField w) (dField w)) else .error .index

/-- Format I: an index 0 to 6, and `d` must be 0 (R62). -/
def decodeI (w : OpWord) : Except Reserved Instr :=
  if indexInRange (aField w) then
    if dField w = 0 then .ok (.cmt (aField w)) else .error .field
  else .error .index

/-- R65: look the operation code up in R64, then check the format's zero fields and index range. -/
def decode (w : OpWord) : Except Reserved Instr :=
  match (opField w).toNat with
  | 0x0 => decodeR w
  | 0x1 => decodeW w
  | 0x2 => decodeI w
  | 0x3 => decodeZ .conv w
  | 0x4 => decodeZ .clrp w
  | 0x5 => decodeZ .tkrst w
  | 0x8 => decodeZ .ctk w
  | 0x9 => decodeZ .ovs w
  | 0xA => decodeZ .ign w
  | 0xB => decodeZ .crk w
  | 0xC => decodeZ .rtk w
  | 0xF => decodeZ .rst w
  | _ => .error .opcode

/-- An operation word from its three fields, `op :: a :: d` (R61). -/
def assemble (op a : BitVec 4) (d : Byte) : OpWord := (op ++ a) ++ d

/-- The word of an operation (R64, column `word`). -/
def encode : Instr → OpWord
  | .rd rr => assemble 0x0 0 rr
  | .wrdig i dd => assemble 0x1 i dd
  | .cmt i => assemble 0x2 i 0
  | .conv => assemble 0x3 0 0
  | .clrp => assemble 0x4 0 0
  | .tkrst => assemble 0x5 0 0
  | .ctk => assemble 0x8 0 0
  | .ovs => assemble 0x9 0 0
  | .ign => assemble 0xA 0 0
  | .crk => assemble 0xB 0 0
  | .rtk => assemble 0xC 0 0
  | .rst => assemble 0xF 0 0

/-- The pin event an operation is, if it is of the pin-event class (R60). -/
def Instr.pinEvent? : Instr → Option PinEvent
  | .ctk => some .countTick
  | .ovs => some .overflowService
  | .ign => some .ignitionEdge
  | .crk => some .crankEdge
  | .rtk => some .refreshTick
  | .rst => some .reset
  | .rd _ => none
  | .wrdig _ _ => none
  | .cmt _ => none
  | .conv => none
  | .clrp => none
  | .tkrst => none

/-- The operation a pin event causes (60_exceptions.md R162). -/
def PinEvent.toInstr : PinEvent → Instr
  | .countTick => .ctk
  | .overflowService => .ovs
  | .ignitionEdge => .ign
  | .crankEdge => .crk
  | .refreshTick => .rtk
  | .reset => .rst

/-- The host class (R60): issued on the host port. -/
def Instr.isHost (i : Instr) : Bool := i.pinEvent?.isNone

/-- The mnemonic of R64. -/
def Instr.mnemonic : Instr → String
  | .rd _ => "RD"
  | .wrdig _ _ => "WRDIG"
  | .cmt _ => "CMT"
  | .conv => "CONV"
  | .clrp => "CLRP"
  | .tkrst => "TKRST"
  | .ctk => "CTK"
  | .ovs => "OVS"
  | .ign => "IGN"
  | .crk => "CRK"
  | .rtk => "RTK"
  | .rst => "RST"

/-- One row of the opcode table: mnemonic, the fixed bits and which bits are fixed, and whether bits 11:8 are an index
that must be at most 6. -/
structure OpcodeRow where
  mnemonic : String
  fixedBits : OpWord
  fixedMask : OpWord
  indexed : Bool
deriving DecidableEq, Repr

/-- R64 as opcode_table.json holds it ("the two must agree"). -/
def opcodeTable : List OpcodeRow :=
  [ ⟨"RD", 0x0000, 0xFF00, false⟩, ⟨"WRDIG", 0x1000, 0xF000, true⟩, ⟨"CMT", 0x2000, 0xF0FF, true⟩,
    ⟨"CONV", 0x3000, 0xFFFF, false⟩, ⟨"CLRP", 0x4000, 0xFFFF, false⟩, ⟨"TKRST", 0x5000, 0xFFFF, false⟩,
    ⟨"CTK", 0x8000, 0xFFFF, false⟩, ⟨"OVS", 0x9000, 0xFFFF, false⟩, ⟨"IGN", 0xA000, 0xFFFF, false⟩,
    ⟨"CRK", 0xB000, 0xFFFF, false⟩, ⟨"RTK", 0xC000, 0xFFFF, false⟩, ⟨"RST", 0xF000, 0xFFFF, false⟩ ]

/-- A word is of a row when its fixed bits are the row's and, where the row has an index, the index is 0 to 6. -/
def rowMatches (row : OpcodeRow) (w : OpWord) : Bool :=
  decide (w &&& row.fixedMask = row.fixedBits) && (!row.indexed || indexInRange (aField w))

/-- The host's entry: the operation this decoder reads from the 16-bit word `w`. -/
def decodeTableWord (_nbits w : Nat) : Option Instr := (decode (BitVec.ofNat 16 w)).toOption

end Sys2Proof
end

