-- ==== Sys2Proof/Config.lean ====
section
/-! DEFINITION. What an implementation fixes (the four parameters of 00_scope.md R5) and the one free value of the
spec (the draws of 41_converter.md R106). The constants have no body: nothing can be proved of their values. -/
namespace Sys2Proof

/-- A digit code the block can produce: a decimal digit, or DASH (00_scope.md R8). The codes 10 to 15 and 17 to 31 are
never produced, and 93_implementation_defined.md P6 has a model leave them out.
DESIGN CHOICE (the spec's P6), safe: notes/assumptions/8.md. -/
inductive DigitCode where
  | digit (d : Fin 10)
  | dash
deriving DecidableEq, Repr

/-- The parameters of 00_scope.md R5, "fixed over a behaviour". `SEG` is total on the eleven codes and nothing else is
assumed of it; `MINCOUNT` is at least 1 (R5, D11). -/
structure Params where
  ignitionFactor : Word32
  minCount : Word32
  minCount_pos : 1 ≤ minCount.toNat
  segDigits : Vector Byte 10
  segDash : Byte
  selActiveLow : Bool
deriving DecidableEq, Repr

/-- IGNITION_FACTOR of this machine (R5). -/
opaque Config.ignitionFactor : Word32

/-- MINCOUNT of this machine, less 1, so that MINCOUNT runs over 1 to 2^32 - 1 and nothing else (R5). -/
opaque Config.minCountLessOne : Fin 4294967295

/-- SEG of this machine on the codes 0 to 9 (R5). -/
opaque Config.segDigits : Vector Byte 10

/-- SEG of this machine on DASH (R5). -/
opaque Config.segDash : Byte

/-- SEL_ACTIVE_LOW of this machine (R5). -/
opaque Config.selActiveLow : Bool

theorem Config.minCount_pos : 1 ≤ (BitVec.ofNat 32 (Config.minCountLessOne.val + 1)).toNat := by
  have h := Config.minCountLessOne.isLt
  rw [BitVec.toNat_ofNat]
  omega

/-- The parameters the machine comes out of reset with: any the spec allows. -/
def Config.params : Params where
  ignitionFactor := Config.ignitionFactor
  minCount := BitVec.ofNat 32 (Config.minCountLessOne.val + 1)
  minCount_pos := Config.minCount_pos
  segDigits := Config.segDigits
  segDash := Config.segDash
  selActiveLow := Config.selActiveLow

/-- The free value: the `n`-th `draw(0..9)` (41_converter.md R106), a digit that no rule constrains
(notes/assumptions/5.md). -/
opaque Config.freeDigit : Nat → Fin 10

end Sys2Proof
end

