-- ==== Sys2Proof/Machine/Display.lean ====
section
/-! DEFINITION. What the display's parameters make of a digit code and of a select mask (00_scope.md R8,
10_state.md R26). -/
namespace Sys2Proof.Machine

/-- The 5-bit code of a digit (00_scope.md R8): 0 to 9, or 16 for DASH. -/
def codeBits : DigitCode → BitVec 5
  | .digit d => BitVec.ofNat 5 d.val
  | .dash => 16

/-- SEG, the segment table (R5, R8). -/
def segPattern (p : Params) : DigitCode → Byte
  | .digit d => p.segDigits.get d
  | .dash => p.segDash

/-- ALL_OFF (R26): every select line at its inactive level. -/
def allOff (p : Params) : SelectMask := if p.selActiveLow then 0x7F else 0x00

/-- drive(m) (R26): the select lines that select the positions of `m`. -/
def driveSelect (p : Params) (m : SelectMask) : SelectMask :=
  if p.selActiveLow then ~~~m &&& 0x7F else m

end Sys2Proof.Machine
end

