-- ==== Sys2Proof/Machine/State.lean ====
section
/-! DEFINITION. The state of the block (10_state.md R10: fifteen items and nothing else), the output trace (R31), the
inputs of the step (R28), and the state after reset (R30). Plain data throughout. -/
namespace Sys2Proof.Machine

/-- One operation as it reaches the block: a word on the host port, or an event at a pin. A pin event carries no word
(30_encoding.md R61), and nothing but a pin event comes from a pin (60_exceptions.md R167). -/
inductive Stimulus where
  | host (w : OpWord)
  | pin (e : PinEvent)
deriving DecidableEq, Repr

/-- One pair (line, value) of the output trace (10_state.md R31). -/
inductive OutWrite where
  | sel (v : SelectMask)
  | seg (v : Byte)
deriving DecidableEq, Repr

/-- The machine. The first fifteen fields are the block's state (R10); `trace` is the observation R31 keeps; the last
four are the model's own: the parameters and inputs of the step (R28) and the value RD returns (R140). -/
structure State where
  /-- CNT, the 16-bit free-running counter (R13). -/
  cnt : BitVec 16
  /-- EXT, the 8-bit overflow-extension count (R14). -/
  ext : BitVec 8
  /-- OVF_PEND, the hidden overflow request (R15). -/
  ovfPend : Bool
  /-- IGN_TS, the ignition timestamp (R16). -/
  ignTs : Timestamp
  /-- IGN_PEND (R17). -/
  ignPend : Bool
  /-- CRK_TS, the crank timestamp (R18). -/
  crkTs : Timestamp
  /-- CRK_PEND (R19). -/
  crkPend : Bool
  /-- SUPPRESS, the noise-suppression latch: crank edges are ignored while it is set (R20, 90_conflicts.md C1). -/
  suppress : Bool
  /-- RES[0..6], the converter's results: 0 to 3 RPM, 4 to 6 advance, least significant first (R21). -/
  res : Vector DigitCode 7
  /-- DIG[0..6], the DigitBuffer (R22). -/
  dig : Vector Byte 7
  /-- POS, the current digit position, 0 to 6 (R23). DESIGN CHOICE, safe: notes/assumptions/8.md. -/
  pos : Fin 7
  /-- MASK, the rotating select mask (R24). -/
  mask : SelectMask
  /-- MS, the MillisecondTicker (R25). -/
  ms : BitVec 16
  /-- SEL_OUT, the latch behind the select lines (R26). -/
  selOut : SelectMask
  /-- SEG_OUT, the latch behind the segment lines (R26). -/
  segOut : Byte
  /-- The output trace since the last RST, oldest first (R31). -/
  trace : List OutWrite
  /-- The parameters of R5; no operation writes them. DESIGN CHOICE, safe: notes/assumptions/4.md. -/
  params : Params
  /-- The operations still to be applied, the next one first (R46). DESIGN CHOICE, safe: notes/assumptions/2.md. -/
  inputs : List Stimulus
  /-- How many digits have been drawn (R106). DESIGN CHOICE, safe: notes/assumptions/5.md. -/
  draws : Nat
  /-- What the last RD returned, none before the first (R140). DESIGN CHOICE: notes/assumptions/6.md. -/
  readData : Option Word32
deriving DecidableEq, Repr

/-- Nothing faults: "No operation of the block raises an exception, faults, traps or returns an error"
(60_exceptions.md R160). The type has no constructor. -/
inductive Fault where
deriving DecidableEq, Repr

/-- Why a step has no meaning. Each is the treatment "refuse" of 93_implementation_defined.md section 3. -/
inductive Refusal where
  /-- Raised by `exec` for an operation that has no meaning yet: none is left. Safe. -/
  | notModelled (mnemonic : String)
  /-- Raised by `fetch` for a reserved word (R66, V1 to V3), and by a meaning given an index of 7 to 15, which no
  word decodes to. Safe: the hardware goes on unchanged (notes/assumptions/7.md). -/
  | reservedWord (why : Reserved)
  /-- Raised by `fetch` for a word of the pin-event class on the host port (R66, V4). Safe: as above. -/
  | pinWordOnHostPort (w : OpWord)
  /-- Raised by RD of an unimplemented register number (R140 a, V5). Safe: the hardware returns 0 and goes on
  unchanged (notes/assumptions/7.md). -/
  | reservedRegister (rr : BitVec 8)
deriving DecidableEq, Repr

/-- The reset state of R30 for parameters `p`; the model's own fields as notes/assumptions/2.md, 5.md and 6.md say. -/
def State.resetWith (p : Params) : State where
  cnt := 0
  ext := 0
  ovfPend := false
  ignTs := 0
  ignPend := false
  crkTs := 0
  crkPend := false
  suppress := false
  res := Vector.replicate 7 .dash
  dig := Vector.replicate 7 (segPattern p .dash)
  pos := 0
  mask := 0b0000001
  ms := 0
  selOut := allOff p
  segOut := segPattern p .dash
  trace := []
  params := p
  inputs := []
  draws := 0
  readData := none

/-- The machine right after reset (R30), with this machine's parameters. -/
def State.reset : State := State.resetWith Config.params

end Sys2Proof.Machine
end

