-- ==== Sys2Proof/Machine/Flags.lean ====
section
/-! DEFINITION. The flag computations: the overflow request of CTK (40_capture.md R80) and the STATUS view
(10_state.md R27). -/
namespace Sys2Proof.Machine

/-- The counter wraps at the next count tick (R80). -/
def wrapsNext (cnt : BitVec 16) : Bool := cnt == 0xFFFF

/-- OVF_PEND after CTK: set on the wrap, else as it was (R80). -/
def overflowAfterTick (cnt : BitVec 16) (ovf : Bool) : Bool := if wrapsNext cnt then true else ovf

/-- STATUS: SUPPRESS :: CRK_PEND :: IGN_PEND, bits 31 to 3 read as 0 (R27, R140). -/
def statusView (s : State) : Word32 :=
  (BitVec.ofBool s.suppress ++ BitVec.ofBool s.crkPend ++ BitVec.ofBool s.ignPend).setWidth 32

end Sys2Proof.Machine
end

