-- ==== Sys2Proof/Machine/Ops.lean ====
section
/-! DEFINITION. The named operations over the state that the meanings share: taking the next input, the snapshot of a
capture, the output writes, a write of the digit buffer, the value a read returns, and the draws. The block has no
memory (20_memory.md R40) and raises no exception (60_exceptions.md R160), so there is neither an access to memory nor
an exception entry among them. -/
namespace Sys2Proof.Machine

/-- What the next input asks for: nothing (the sequence has ended), an operation, or a word the model refuses. -/
inductive Fetched where
  | idle
  | op (i : Instr)
  | refused (r : Refusal)
deriving DecidableEq, Repr

/-- A host word: an operation of the host class, or reserved (30_encoding.md R66: also a pin-event word). -/
def fetchHostWord (w : OpWord) : Fetched :=
  match decode w with
  | .error why => .refused (.reservedWord why)
  | .ok i => if i.isHost then .op i else .refused (.pinWordOnHostPort w)

/-- The operation a stimulus is. -/
def fetchStimulus : Stimulus → Fetched
  | .host w => fetchHostWord w
  | .pin e => .op e.toInstr

/-- The next operation of the sequence (20_memory.md R46). -/
def fetch (s : State) : Fetched :=
  match s.inputs with
  | [] => .idle
  | x :: _ => fetchStimulus x

/-- The state with the next input taken off the sequence. -/
def takeInput (s : State) : State := { s with inputs := s.inputs.tail }

/-- How an operation reaches the block: a pin event at its pin, a host operation as its word (R60, R61). -/
def stimulusOf (i : Instr) : Stimulus :=
  match i.pinEvent? with
  | some e => .pin e
  | none => .host (encode i)

/-- How the notation of 30_encoding.md R61 reaches the block: the word of a pin event stands for the event; every other
word, a reserved one too, is sent on the host port. -/
def stimulusOfWord (w : OpWord) : Stimulus :=
  match decode w with
  | .ok i => stimulusOf i
  | .error _ => .host w

/-- Put a stimulus before the others, where `fetch` takes the next operation from. -/
def pushInput (x : Stimulus) (s : State) : State := { s with inputs := x :: s.inputs }

/-- The bytes a capture takes, in the source's order: counter low byte, counter high byte, extension count; assembled
low byte least significant (20_memory.md R42, 40_capture.md R82), so that the value is EXT :: CNT. -/
def snapshot (s : State) : Timestamp :=
  s.ext ++ (s.cnt.extractLsb' 8 8 ++ s.cnt.extractLsb' 0 8 : BitVec 16)

/-- `out SEL <- v` (00_scope.md R7, 10_state.md R31). -/
def outSel (v : SelectMask) (s : State) : State := { s with selOut := v, trace := s.trace ++ [.sel v] }

/-- `out SEG <- v` (00_scope.md R7, 10_state.md R31). -/
def outSeg (v : Byte) (s : State) : State := { s with segOut := v, trace := s.trace ++ [.seg v] }

/-- `DIG[k] <- b` (10_state.md R22). -/
def writeDig (k : Fin 7) (b : Byte) (s : State) : State := { s with dig := s.dig.set k.val b k.isLt }

/-- The host port returns `v` (43_host_port.md R140); no state of the block changes. -/
def returnData (v : Word32) (s : State) : State := { s with readData := some v }

/-- Three digit codes of `draw(0..9)` (41_converter.md R106), the next after the first `n` drawn. -/
def drawnDigits (n : Nat) : Vector DigitCode 3 :=
  #v[.digit (Config.freeDigit n), .digit (Config.freeDigit (n + 1)), .digit (Config.freeDigit (n + 2))]

end Sys2Proof.Machine
end

