-- ==== Sys2Proof/Machine/Capture.lean ====
section
/-! DEFINITION. The CAP unit: CTK, OVS, IGN, CRK (40_capture.md). -/
namespace Sys2Proof.Machine

/-- CTK (R80): the counter advances, and a wrap raises the overflow request. -/
def countTick (s : State) : State :=
  { s with cnt := s.cnt + 1, ovfPend := overflowAfterTick s.cnt s.ovfPend }

/-- OVS (R81): a pending overflow request is served; with none pending, nothing changes. So OVS twice with nothing between
equals OVS once, though 20_memory.md R45 lists OVS with a request pending as not idempotent; the model follows R81.
DEDUCED, unsafe: notes/assumptions/13.md. -/
def serveOverflow (s : State) : State :=
  if s.ovfPend then { s with ext := s.ext + 1, ovfPend := false } else s

/-- IGN (R82): capture, restart the count, set the pending flag, lift the noise suppression. OVF_PEND stays (D4). -/
def captureIgnition (s : State) : State :=
  { s with ignTs := snapshot s, cnt := 0, ext := 0, ignPend := true, suppress := false }

/-- CRK (R83): unless suppressed, capture, set the pending flag, arm the suppression. "a second CRK changes nothing" (R83),
so CRK twice with nothing between equals CRK once, though 20_memory.md R45 lists an accepted CRK as not idempotent; the
model follows R83. DEDUCED, unsafe: notes/assumptions/13.md. -/
def captureCrank (s : State) : State :=
  if s.suppress then s else { s with crkTs := snapshot s, crkPend := true, suppress := true }

/-- CTK, 40_capture.md R80. -/
def execCtk (s : State) : Host.Outcome State Fault Refusal := .next (countTick s)

/-- OVS, 40_capture.md R81. -/
def execOvs (s : State) : Host.Outcome State Fault Refusal := .next (serveOverflow s)

/-- IGN, 40_capture.md R82. -/
def execIgn (s : State) : Host.Outcome State Fault Refusal := .next (captureIgnition s)

/-- CRK, 40_capture.md R83. -/
def execCrk (s : State) : Host.Outcome State Fault Refusal := .next (captureCrank s)

end Sys2Proof.Machine
end

