-- ==== Sys2Proof/Machine/Converter.lean ====
section
/-! DEFINITION. The CONV unit (41_converter.md): unsigned 32-bit arithmetic, division truncating (R110). The functions
take the parameters as arguments, so that they can be evaluated at named values. -/
namespace Sys2Proof.Machine

/-- FW_OFFSET, the fixed mounting offset of 28 degrees (00_scope.md R4). -/
def fwOffset : Word32 := 28

/-- The angle scale (00_scope.md R4). -/
def angleScale : Word32 := 180

/-- `v` after `k` rounds of `v <- v divu 10` (R107). -/
def divTen : Nat → Word32 → Word32
  | 0, v => v
  | k + 1, v => divTen k (v / 10)

/-- `v mod 10` as a digit code (R107). -/
def lowDigit (v : Word32) : DigitCode := .digit ⟨v.toNat % 10, Nat.mod_lt _ (by decide)⟩

/-- `digits(v, n)`: least significant first, the `k`-th taken after `k` divisions by ten (R107). -/
def digits (n : Nat) (v : Word32) : Vector DigitCode n := Vector.ofFn fun k => lowDigit (divTen k.val v)

/-- The RPM digits: nines below MINCOUNT, checked before the division (R104); else the digits of the quotient (R103). -/
def rpmDigits (p : Params) (its : Word32) : Vector DigitCode 4 :=
  if its.toNat < p.minCount.toNat then Vector.replicate 4 (.digit 9) else digits 4 (p.ignitionFactor / its)

/-- `(180 * cts divu its) - 28`, multiplication first, subtraction last and wrapping (R105). -/
def advance (cts its : Word32) : Word32 := angleScale * cts / its - fwOffset

/-- The advance digits for a pending crank event: `drawn` at interval 0 (R106), else those of the advance (R105). -/
def advDigits (drawn : Vector DigitCode 3) (cts its : Word32) : Vector DigitCode 3 :=
  if its = 0 then drawn else digits 3 (advance cts its)

/-- `conv(ip, its, cp, cts)` (R101, R108, R109), with the digits to draw if it comes to that. -/
def convert (p : Params) (drawn : Vector DigitCode 3) (ip : Bool) (its : Word32) (cp : Bool) (cts : Word32) :
    Vector DigitCode 7 :=
  if ip then
    rpmDigits p its ++ (if cp then advDigits drawn cts its else Vector.replicate 3 .dash)
  else Vector.replicate 7 .dash

/-- Whether a conversion meets the division by zero of R106, and so draws. -/
def convDraws (ip : Bool) (its : Word32) (cp : Bool) : Bool := ip && cp && its == 0

/-- CONV (R100): all four inputs are read in the one step; only RES changes (and the count of draws). -/
def runConverter (s : State) : State :=
  { s with
    res := convert s.params (drawnDigits s.draws) s.ignPend (s.ignTs.setWidth 32) s.crkPend (s.crkTs.setWidth 32)
    draws := if convDraws s.ignPend (s.ignTs.setWidth 32) s.crkPend then s.draws + 3 else s.draws }

/-- CONV, 41_converter.md R100. -/
def execConv (s : State) : Host.Outcome State Fault Refusal := .next (runConverter s)

end Sys2Proof.Machine
end

