-- ==== Sys2Proof/Machine/Operands.lean ====
section
/-! DEFINITION. The operand forms: a digit position in the `a` field, and a host register number in the `d` field
(30_encoding.md R63, 20_memory.md R41). -/
namespace Sys2Proof.Machine

/-- The position an index names: 0 to 6, or none (R62, R66). -/
def position? (i : BitVec 4) : Option (Fin 7) :=
  if h : i.toNat < 7 then some ⟨i.toNat, h⟩ else none

/-- The implemented host registers (R41). -/
inductive HostReg where
  | status
  | ignTs
  | crkTs
  | ms
  | dig (k : Fin 7)
  | res (k : Fin 7)
deriving DecidableEq, Repr

/-- The number a block of seven registers based at `base` gives to `n`, if `n` is one of them. -/
def indexFrom (base n : Nat) : Option (Fin 7) :=
  if h : n - base < 7 then (if base ≤ n then some ⟨n - base, h⟩ else none) else none

/-- The register map (R41); none where the number is reserved. -/
def hostReg? (rr : BitVec 8) : Option HostReg :=
  match rr.toNat with
  | 0x00 => some .status
  | 0x01 => some .ignTs
  | 0x02 => some .crkTs
  | 0x03 => some .ms
  | n =>
    match indexFrom 0x10 n with
    | some k => some (.dig k)
    | none => (indexFrom 0x20 n).map .res

/-- RegRead (43_host_port.md R140): the whole register, zero-extended to 32 bits. -/
def readHostReg (s : State) : HostReg → Word32
  | .status => statusView s
  | .ignTs => s.ignTs.setWidth 32
  | .crkTs => s.crkTs.setWidth 32
  | .ms => s.ms.setWidth 32
  | .dig k => (s.dig.get k).setWidth 32
  | .res k => (codeBits (s.res.get k)).setWidth 32

end Sys2Proof.Machine
end

