-- ==== Sys2Proof/Machine/HostPort.lean ====
section
/-! DEFINITION. The host port: RD, WRDIG, CMT, CLRP (43_host_port.md). -/
namespace Sys2Proof.Machine

/-- CLRP (R143): both pending flags, and nothing else; SUPPRESS stays. -/
def clearPending (s : State) : State := { s with ignPend := false, crkPend := false }

/-- RD, 43_host_port.md R140: returns a whole register and changes no state of the block. A reserved number is refused,
as corner case (a) asks of a model (notes/assumptions/7.md). -/
def execRd (rr : BitVec 8) (s : State) : Host.Outcome State Fault Refusal :=
  match hostReg? rr with
  | some r => .next (returnData (readHostReg s r) s)
  | none => .refused (.reservedRegister rr)

/-- WRDIG, 43_host_port.md R141. An index of 7 to 15 is a reserved word (R66). -/
def execWrdig (i : BitVec 4) (dd : Byte) (s : State) : Host.Outcome State Fault Refusal :=
  match position? i with
  | some k => .next (writeDig k dd s)
  | none => .refused (.reservedWord .index)

/-- CMT, 43_host_port.md R142: `DIG[i] <- SEG(RES[i])`. An index of 7 to 15 is a reserved word (R66). -/
def execCmt (i : BitVec 4) (s : State) : Host.Outcome State Fault Refusal :=
  match position? i with
  | some k => .next (writeDig k (segPattern s.params (s.res.get k)) s)
  | none => .refused (.reservedWord .index)

/-- CLRP, 43_host_port.md R143. -/
def execClrp (s : State) : Host.Outcome State Fault Refusal := .next (clearPending s)

end Sys2Proof.Machine
end

