-- ==== Sys2Proof/Machine/Multiplexer.lean ====
section
/-! DEFINITION. The MUX unit: RTK and TKRST (42_multiplexer.md). -/
namespace Sys2Proof.Machine

/-- The next position: down by one, 0 wraps to 6 (R120). -/
def nextPos (p : Fin 7) : Fin 7 := if p = 0 then 6 else p - 1

/-- Rotate right by one (00_scope.md R7). -/
def ror7 (m : SelectMask) : SelectMask := (m >>> 1) ||| ((m &&& 1) <<< 6)

/-- RTK (R120): blank, select the new position, drive its pattern, in that order; the position, the mask and the ticker
advance. -/
def refreshTick (s : State) : State :=
  let npos := nextPos s.pos
  let nmask := ror7 s.mask
  let blanked := outSel (allOff s.params) s
  let selected := outSel (driveSelect s.params nmask) blanked
  let driven := outSeg (s.dig.get npos) selected
  { driven with pos := npos, mask := nmask, ms := s.ms + 1 }

/-- TKRST (R121). -/
def resetTicker (s : State) : State := { s with ms := 0 }

/-- RTK, 42_multiplexer.md R120. -/
def execRtk (s : State) : Host.Outcome State Fault Refusal := .next (refreshTick s)

/-- TKRST, 42_multiplexer.md R121. -/
def execTkrst (s : State) : Host.Outcome State Fault Refusal := .next (resetTicker s)

end Sys2Proof.Machine
end

