-- ==== Sys2Proof/Machine/Reset.lean ====
section
/-! DEFINITION. RST (70_reset_and_hazards.md R180). -/
namespace Sys2Proof.Machine

/-- RST (R180), line by line. The parameters stay (corner case c); the operations still to come stay, since RST does
not end a behaviour (20_memory.md R46); the count of draws and the last value returned to the host are no state of
the block and stay (notes/assumptions/5.md, 6.md). -/
def resetBlock (s : State) : State :=
  { s with
    cnt := 0, ext := 0, ovfPend := false
    ignTs := 0, ignPend := false, crkTs := 0, crkPend := false, suppress := false
    res := Vector.replicate 7 .dash
    dig := Vector.replicate 7 (segPattern s.params .dash)
    pos := 0, mask := 0b0000001, ms := 0
    selOut := allOff s.params, segOut := segPattern s.params .dash
    trace := [] }

/-- RST, 70_reset_and_hazards.md R180. -/
def execRst (s : State) : Host.Outcome State Fault Refusal := .next (resetBlock s)

end Sys2Proof.Machine
end

