-- ==== Sys2Proof/Machine/Dispatch.lean ====
section
/-! DEFINITION. One arm per operation, each one call of its meaning. -/
namespace Sys2Proof.Machine

def exec (i : Instr) (s : State) : Host.Outcome State Fault Refusal :=
  match i with
  | .rd rr => Sys2Proof.Machine.execRd rr s
  | .wrdig i' dd => Sys2Proof.Machine.execWrdig i' dd s
  | .cmt i' => Sys2Proof.Machine.execCmt i' s
  | .conv => Sys2Proof.Machine.execConv s
  | .clrp => Sys2Proof.Machine.execClrp s
  | .tkrst => Sys2Proof.Machine.execTkrst s
  | .ctk => Sys2Proof.Machine.execCtk s
  | .ovs => Sys2Proof.Machine.execOvs s
  | .ign => Sys2Proof.Machine.execIgn s
  | .crk => Sys2Proof.Machine.execCrk s
  | .rtk => Sys2Proof.Machine.execRtk s
  | .rst => Sys2Proof.Machine.execRst s

end Sys2Proof.Machine
end

