-- ==== Sys2Proof/Machine/Step.lean ====
section
/-! DEFINITION. One step: the next operation of the sequence is applied (20_memory.md R46). -/
namespace Sys2Proof.Machine

/-- Take the next operation and run it. With none left the block stays as it is (notes/assumptions/3.md). -/
def step (s : State) : Host.Outcome State Fault Refusal :=
  match fetch s with
  | .idle => .next s
  | .op i => exec i (takeInput s)
  | .refused r => .refused r

/-- The operation whose word is `w` becomes the next one applied. -/
def State.withFetchWord (s : State) (_nbits w : Nat) : State := pushInput (stimulusOfWord (BitVec.ofNat 16 w)) s

end Sys2Proof.Machine
end

