-- ==== Sys2Proof/Machine/Reserved.lean ====
section
/-! DEFINITION. What the HARDWARE does where the model refuses (92_eei_decisions.md D21, 93_implementation_defined.md
V1 to V5). The spec has a model refuse these words "so that no claim depends on that choice" (30_encoding.md R66), and
`step` does; this file writes the choice down beside it, for whoever implements the block. -/
namespace Sys2Proof.Machine

/-- The hardware's effect where the model refuses: no state changes; RD of a reserved number returns 0 (R140 a), and a
reserved word returns no data (R66). -/
def reservedEffect (r : Refusal) (s : State) : State :=
  match r with
  | .reservedRegister _ => returnData 0 s
  | _ => s

/-- One step of the hardware: the model's, and the effect of D21 where the model refuses. -/
def hardwareStep (s : State) : State :=
  match step s with
  | .next t => t
  | .fault f => nomatch f
  | .refused r => reservedEffect r (takeInput s)

end Sys2Proof.Machine
end

