-- ==== Sys2Proof/Machine/Pseudo.lean ====
section
/-! DEFINITION. The pseudo-operations of 30_encoding.md R69, "each a pure abbreviation", and the sequence of operations
as one behaviour (20_memory.md R46). -/
namespace Sys2Proof.Machine

/-- `X *n` (R69). -/
def repeatOp (n : Nat) (x : Instr) : List Instr := List.replicate n x

/-- `COMMIT` (R69): the seven CMT in order. -/
def commitOps : List Instr := [.cmt 0, .cmt 1, .cmt 2, .cmt 3, .cmt 4, .cmt 5, .cmt 6]

/-- `ITER` (R69): CONV, COMMIT, CLRP. -/
def iterOps : List Instr := .conv :: (commitOps ++ [.clrp])

/-- `FRAME` (R69): one full refresh cycle. -/
def frameOps : List Instr := repeatOp 7 .rtk

/-- A sequence of operations applied one after the other, each to the state the one before it left (R46). -/
def runOps : List Instr → State → Host.Outcome State Fault Refusal
  | [], s => .next s
  | i :: rest, s =>
    match exec i s with
    | .next t => runOps rest t
    | .fault f => .fault f
    | .refused r => .refused r

end Sys2Proof.Machine
end

