-- ==== Sys2Proof/Machine/Behaviour.lean ====
section
/-! DEFINITION. Behaviours of the block, finite and infinite (20_memory.md R46). A behaviour is what the outside world
applies, no part of the state, so an infinite one may be a function; State.inputs stays plain data
(notes/assumptions/2.md). -/
namespace Sys2Proof.Machine

/-- "A behaviour of the block is a finite or infinite sequence of operations" (R46); every sequence is one. -/
inductive Behaviour where
  | finite (ops : List Instr)
  | infinite (op : Nat → Instr)

/-- The first `n` operations of a behaviour (all of them, where it is shorter). -/
def Behaviour.firstOps (b : Behaviour) (n : Nat) : List Instr :=
  match b with
  | .finite ops => ops.take n
  | .infinite op => (List.range n).map op

/-- What the first `n` operations of a behaviour give from `s`, in the one total order (R46). From the reset state this is
the state the behaviour has after `n` operations. -/
def Behaviour.stateAfter (b : Behaviour) (n : Nat) (s : State) : Host.Outcome State Fault Refusal :=
  runOps (b.firstOps n) s

/-- "A finite behaviour ends where its sequence ends, its result is the state after the last operation together with the
output trace" (R46, D31; the trace is a field of State). An infinite one has no result. -/
def Behaviour.result (b : Behaviour) (s : State) : Option (Host.Outcome State Fault Refusal) :=
  match b with
  | .finite ops => some (runOps ops s)
  | .infinite _ => none

/-- `n` steps of the machine under a world that never stops: before step `k` it applies the stimulus `x k` (R46, R163). -/
def stepsUnder (x : Nat → Stimulus) : Nat → State → Host.Outcome State Fault Refusal
  | 0, s => .next s
  | n + 1, s =>
    match stepsUnder x n s with
    | .next t => step (pushInput (x n) t)
    | .fault f => .fault f
    | .refused r => .refused r

end Sys2Proof.Machine
end

