-- ==== Sys2Proof/Safety.lean ====
section
/-! DEFINITION. The terms the claims use: the invariant of the display (10_state.md R24, R31, 42_multiplexer.md R123), the
bookkeeping of the overflow race (40_capture.md R85, R86), the premise PromptOVS (70_reset_and_hazards.md R185), decimal
digits and the laws of the converter (41_converter.md R107, R111), and the register numbers that exist (20_memory.md
R41). -/
namespace Sys2Proof.Machine

/-! ### The display -/

/-- The value of the last write to the select lines in a trace, oldest write first (R31). -/
def lastSel : List OutWrite → Option SelectMask
  | [] => none
  | .sel v :: rest => some ((lastSel rest).getD v)
  | .seg _ :: rest => lastSel rest

/-- The value of the last write to the segment lines in a trace (R31). -/
def lastSeg : List OutWrite → Option Byte
  | [] => none
  | .sel _ :: rest => lastSeg rest
  | .seg v :: rest => some ((lastSeg rest).getD v)

/-- Whether the select line of position `k` is at its active level (R26). -/
def lineActive (p : Params) (lines : SelectMask) (k : Fin 7) : Bool :=
  lines.getLsbD k.val != p.selActiveLow

/-- The invariant of the display: MASK = 1 << POS (R24, R32); the output latches hold the last value written, or their
reset value (R31); the position selected is POS once a tick has occurred, and none before (R123); a trace holds three
pairs for each tick (R31). -/
structure DisplayInv (s : State) : Prop where
  mask_is_pos : s.mask = (1 : SelectMask) <<< s.pos.val
  sel_is_last : s.selOut = (lastSel s.trace).getD (allOff s.params)
  seg_is_last : s.segOut = (lastSeg s.trace).getD (segPattern s.params .dash)
  sel_before_tick : s.trace = [] → s.selOut = allOff s.params
  sel_after_tick : s.trace ≠ [] → s.selOut = driveSelect s.params s.mask
  three_a_tick : s.trace.length % 3 = 0

/-! ### The overflow race -/

/-- The quantities of R85 for the period since the last IGN or RST: `ticks` is T, `stale` is c, `lost` is l. -/
structure Epoch where
  ticks : Nat
  stale : Bool
  lost : Nat
deriving DecidableEq, Repr

/-- The epoch after RST (R85). -/
def Epoch.start : Epoch := ⟨0, false, 0⟩

/-- The epoch after operation `i` from state `s` (R85, R86): CTK counts, and loses a wrap when it wraps with the request
still pending; IGN and RST begin a new epoch. -/
def epochAfter (i : Instr) (s : State) (e : Epoch) : Epoch :=
  match i with
  | .ctk => ⟨e.ticks + 1, e.stale, if s.ovfPend && wrapsNext s.cnt then e.lost + 1 else e.lost⟩
  | .ign => ⟨0, s.ovfPend, 0⟩
  | .rst => Epoch.start
  | _ => e

/-- The invariant R85 names: (EXT + OVF_PEND) * 65536 + CNT - T = 65536 * (c - l) modulo 2^24, without subtraction. -/
def EpochInv (s : State) (e : Epoch) : Prop :=
  ((s.ext.toNat + s.ovfPend.toNat) * 65536 + s.cnt.toNat + 65536 * e.lost) % 2 ^ 24
    = (e.ticks + 65536 * e.stale.toNat) % 2 ^ 24

/-- What a capture stores by R85: (T + 65536 * (c - p - l)) mod 2^24, with `p` the request pending at the capture. -/
def raceFormula (e : Epoch) (p : Bool) : Int :=
  ((e.ticks : Int) + 65536 * ((e.stale.toNat : Int) - (p.toNat : Int) - (e.lost : Int))) % 2 ^ 24

/-- The operations before which R185 wants a pending overflow served: IGN, CRK and a wrapping CTK. -/
def wantsServed (i : Instr) (s : State) : Bool :=
  match i with
  | .ign => true
  | .crk => true
  | .ctk => wrapsNext s.cnt
  | _ => false

/-- Operation `i` finds no overflow request that R185 wants served before it. -/
def servedBefore (i : Instr) (s : State) : Bool := !(wantsServed i s && s.ovfPend)

/-- Premise PromptOVS (R185) on a sequence of operations from `s`: no IGN, CRK or wrapping CTK finds the overflow request
still pending. -/
def promptOVS : List Instr → State → Bool
  | [], _ => true
  | i :: rest, s =>
    servedBefore i s &&
      match exec i s with
      | .next t => promptOVS rest t
      | _ => true

/-- Premise PromptOVS (R185) on the next step: the operation it runs, if it runs one, finds no such request. -/
def promptStep (s : State) : Bool :=
  match fetch s with
  | .op i => servedBefore i s
  | _ => true

/-- The epoch after the next step: `epochAfter` of the operation it runs, if it runs one (R85). -/
def epochAfterStep (s : State) (e : Epoch) : Epoch :=
  match fetch s with
  | .op i => epochAfter i s e
  | _ => e

/-- The invariant of R85 in an epoch with no stale request and no lost wrap: a capture with no request pending then stores
T modulo 2^24 ("exact", R85). -/
structure ExactEpoch (s : State) (e : Epoch) : Prop where
  inv : EpochInv s e
  not_stale : e.stale = false
  none_lost : e.lost = 0

/-- The number of CTK since the last IGN or RST, read off the sequence alone (T of R85). -/
def ticksSinceEpoch (ops : List Instr) : Nat :=
  ops.foldl (fun n i => match i with | .ctk => n + 1 | .ign => 0 | .rst => 0 | _ => n) 0

/-! ### Digits -/

/-- The decimal digit of weight 10^k of `n`, as a digit code (R107). -/
def decimalDigit (n k : Nat) : DigitCode := .digit ⟨n / 10 ^ k % 10, Nat.mod_lt _ (by decide)⟩

/-- The number that digit codes denote, least significant first; DASH denotes nothing and counts 0. -/
def decimalValue : List DigitCode → Nat
  | [] => 0
  | .digit d :: rest => d.val + 10 * decimalValue rest
  | .dash :: rest => 10 * decimalValue rest

/-! ### The laws of the converter (41_converter.md R111) -/

/-- The conversion of two timestamps: `conv` of R101 on their 32-bit values, with digits to draw if it comes to that. -/
def convertTimestamps (p : Params) (drawn : Vector DigitCode 3) (ip : Bool) (its : Timestamp) (cp : Bool)
    (cts : Timestamp) : Vector DigitCode 7 :=
  convert p drawn ip (its.setWidth 32) cp (cts.setWidth 32)

/-- R111's `cts = ceil((A + 28) * its / 180)` for a chosen advance A. -/
def crankTimestampFor (a : Nat) (its : Timestamp) : Timestamp := BitVec.ofNat 24 (((a + 28) * its.toNat + 179) / 180)

/-- The laws of R111, "testable properties" the source states of the converter, one field each. A timestamp is at most
2^24 - 1, R111's `max`. -/
structure ConverterLaws (p : Params) : Prop where
  /-- (a): for MINCOUNT <= its <= max the RPM digits are those of IGNITION_FACTOR / its, truncated to four. -/
  rpm_digits : ∀ (drawn : Vector DigitCode 3) (its : Timestamp) (cp : Bool) (cts : Timestamp),
    p.minCount.toNat ≤ its.toNat →
      let r := convertTimestamps p drawn true its cp cts
      (∀ k : Fin 7, k.val < 4 → r.get k = decimalDigit (p.ignitionFactor.toNat / its.toNat) k.val)
      ∧ decimalValue (r.toList.take 4) = p.ignitionFactor.toNat / its.toNat % 10000
  /-- (b): for its < MINCOUNT all four RPM digits are the nine. -/
  rpm_nines : ∀ (drawn : Vector DigitCode 3) (its : Timestamp) (cp : Bool) (cts : Timestamp),
    its.toNat < p.minCount.toNat →
      ∀ k : Fin 7, k.val < 4 → (convertTimestamps p drawn true its cp cts).get k = .digit 9
  /-- (c): for its > 0 the advance digits are those of 180 * cts / its - 28 (below 28 the wrap of R105), truncated to
  three. -/
  advance_digits : ∀ (drawn : Vector DigitCode 3) (its cts : Timestamp), 0 < its.toNat →
    let r := convertTimestamps p drawn true its true cts
    let q := 180 * cts.toNat / its.toNat
    (28 ≤ q → (∀ k : Fin 7, 4 ≤ k.val → r.get k = decimalDigit (q - 28) (k.val - 4))
      ∧ decimalValue (r.toList.drop 4) = (q - 28) % 1000)
    ∧ (q < 28 → (∀ k : Fin 7, 4 ≤ k.val → r.get k = decimalDigit (q + 2 ^ 32 - 28) (k.val - 4))
      ∧ decimalValue (r.toList.drop 4) = (q + 2 ^ 32 - 28) % 1000)
  /-- (d): with no crank event the advance digits are the dash, whatever the interval. -/
  no_crank : ∀ (drawn : Vector DigitCode 3) (its cts : Timestamp) (k : Fin 7), 4 ≤ k.val →
    (convertTimestamps p drawn true its false cts).get k = .dash
  /-- (e): with no ignition event all seven digits are the dash. -/
  no_ignition : ∀ (drawn : Vector DigitCode 3) (its : Timestamp) (cp : Bool) (cts : Timestamp) (k : Fin 7),
    (convertTimestamps p drawn false its cp cts).get k = .dash
  /-- The round trip of (c): for A of 0 to 152 and its >= 180 the derived crank timestamp gives q = A + 28, and the digits
  of A again. -/
  round_trip : ∀ (drawn : Vector DigitCode 3) (a : Nat) (its : Timestamp), a ≤ 152 → 180 ≤ its.toNat →
    180 * (crankTimestampFor a its).toNat / its.toNat = a + 28
    ∧ ∀ k : Fin 7, 4 ≤ k.val →
        (convertTimestamps p drawn true its true (crankTimestampFor a its)).get k = decimalDigit a (k.val - 4)
  /-- The limit of the round trip: "for its < 180 several A share one cts". -/
  shared_crank : ∀ its : Timestamp, 0 < its.toNat → its.toNat < 180 →
    ∃ a b, a < b ∧ b ≤ 152 ∧ crankTimestampFor a its = crankTimestampFor b its

/-! ### Registers and outcomes -/

/-- The register numbers R41 implements, as R140 lists them. -/
def implementedReg (rr : BitVec 8) : Bool :=
  decide (rr.toNat ≤ 0x03) || (decide (0x10 ≤ rr.toNat) && decide (rr.toNat ≤ 0x16))
    || (decide (0x20 ≤ rr.toNat) && decide (rr.toNat ≤ 0x26))

/-- An outcome with `f` applied to the next state, if there is one. -/
def mapNext (f : State → State) : Host.Outcome State Fault Refusal → Host.Outcome State Fault Refusal
  | .next t => .next (f t)
  | .fault e => .fault e
  | .refused r => .refused r

end Sys2Proof.Machine
end

