-- ==== Sys2Proof/Certificates/Slice0/Obligations.lean ====
section
/-! DEFINITION. The statements for the provers. Each docstring names the rule of spec/ it formalises. The form
`t = { s with x := t.x }` says that nothing but `x` changes. -/
open Sys2Proof Sys2Proof.Machine

/-! ### Encoding -/

/-- R65: decode and encode are inverse on well-formed operations: every operand at every value survives. -/
def Obligations.DecodeOfEncode : Prop :=
  ∀ i : Instr, i.wellFormed = true → decode (encode i) = .ok i

/-- R65: each operation with its operands has exactly one word, and what a word decodes to is well formed. -/
def Obligations.EncodeOfDecode : Prop :=
  ∀ (w : OpWord) (i : Instr), decode w = .ok i → i.wellFormed = true ∧ encode i = w

/-- R64: "opcode_table.json is the machine-readable copy; the two must agree". A word decodes to an operation exactly
when a row of the table matches it, and the row is that operation's. -/
def Obligations.DecoderAgreesWithOpcodeTable : Prop :=
  ∀ w : OpWord,
    (∀ i, decode w = .ok i → ∃ row ∈ opcodeTable, rowMatches row w = true ∧ row.mnemonic = i.mnemonic)
    ∧ (∀ row ∈ opcodeTable, rowMatches row w = true → ∃ i, decode w = .ok i ∧ i.mnemonic = row.mnemonic)

/-- R66: which words are reserved, that the model refuses each on the host port, and that on the hardware each changes
no state and returns no data. -/
def Obligations.ReservedWordsRefused : Prop :=
  (∀ w : OpWord, (∃ why, decode w = .error why) ↔
      ((opField w).toNat ∈ [0x6, 0x7, 0xD, 0xE]
        ∨ ((opField w).toNat ∈ [0x3, 0x4, 0x5, 0x8, 0x9, 0xA, 0xB, 0xC, 0xF] ∧ (aField w ≠ 0 ∨ dField w ≠ 0))
        ∨ ((opField w).toNat = 0x0 ∧ aField w ≠ 0)
        ∨ ((opField w).toNat = 0x2 ∧ dField w ≠ 0)
        ∨ ((opField w).toNat ∈ [0x1, 0x2] ∧ 7 ≤ (aField w).toNat)))
  ∧ ∀ (w : OpWord) (s : State) (rest : List Stimulus), s.inputs = .host w :: rest →
      ((∃ why, decode w = .error why) ∨ w.getLsbD 15 = true) →
        (∃ r, step s = .refused r) ∧ hardwareStep s = { s with inputs := rest }

/-- R64, R61: words written out from the columns of the opcode map decode to their operations (one of each family). -/
def Obligations.WrittenOutWordsDecode : Prop :=
  decode 0b0000000000010110 = .ok (.rd 0x16)
  ∧ decode 0b0001001101011011 = .ok (.wrdig 3 0x5B)
  ∧ decode 0b0010011000000000 = .ok (.cmt 6)
  ∧ decode 0b0011000000000000 = .ok .conv
  ∧ decode 0b1010000000000000 = .ok .ign
  ∧ decode 0b1100000000000000 = .ok .rtk
  ∧ decode 0b1111000000000000 = .ok .rst

/-! ### The step and the order of operations -/

/-- A step runs the next operation of the sequence, on the state with that operation taken off it: a well-formed word of
the host class on the host port, or a pin event; and `withFetchWord` puts an operation there. -/
def Obligations.StepRunsTheNextOperation : Prop :=
  (∀ (s : State) (w : OpWord) (rest : List Stimulus) (i : Instr), s.inputs = .host w :: rest → decode w = .ok i →
      w.getLsbD 15 = false → step s = exec i { s with inputs := rest })
  ∧ (∀ (s : State) (e : PinEvent) (rest : List Stimulus), s.inputs = .pin e :: rest →
      step s = exec e.toInstr { s with inputs := rest })
  ∧ (∀ (s : State) (nbits w : Nat) (i : Instr), decode (BitVec.ofNat 16 w) = .ok i →
      step (s.withFetchWord nbits w) = exec i s)

/-- With no operation left a step leaves the state as it is. The model's choice (notes/assumptions/3.md), after D31: "A
finite behaviour ends where its operation sequence ends; the state then is the state after the last operation". -/
def Obligations.NoInputLeavesTheState : Prop :=
  ∀ s : State, s.inputs = [] → step s = .next s

/-- R46: "Each operation sees the effects of all operations before it in that order and of none after it": the steps of
the machine over a sequence of inputs are the operations of that sequence applied one after the other, whatever
stands behind them. That the sequence stands in State.inputs is the model's choice (notes/assumptions/2.md). -/
def Obligations.StepsAreTheOrderedSequence : Prop :=
  ∀ (ops : List Instr) (rest : List Stimulus) (s : State), (∀ i ∈ ops, i.wellFormed = true) →
    Host.Core.run Sys2Proof.core ops.length { s with inputs := ops.map stimulusOf ++ rest }
      = runOps ops { s with inputs := rest }

/-- R46: in an infinite behaviour operation number `n` acts on the state the operations before it left, and no later
operation is seen; a finite behaviour's result is the state after its last operation; and a behaviour of well-formed
operations, RD of implemented registers, never stops of itself, RST among them or not. -/
def Obligations.BehaviourIsOneTotalOrder : Prop :=
  (∀ (op : Nat → Instr) (n : Nat) (s t : State), (Behaviour.infinite op).stateAfter n s = .next t →
      (Behaviour.infinite op).stateAfter (n + 1) s = exec (op n) t)
  ∧ (∀ (op op' : Nat → Instr) (n : Nat) (s : State), (∀ k, k < n → op k = op' k) →
      (Behaviour.infinite op).stateAfter n s = (Behaviour.infinite op').stateAfter n s)
  ∧ (∀ (ops : List Instr) (n : Nat) (s : State), ops.length ≤ n →
      (Behaviour.finite ops).result s = some ((Behaviour.finite ops).stateAfter n s))
  ∧ ∀ (op : Nat → Instr) (s : State),
      (∀ k, (op k).wellFormed = true ∧ ∀ rr, op k = .rd rr → implementedReg rr = true) →
      ∀ n, ∃ t, (Behaviour.infinite op).stateAfter n s = .next t

/-- R46, an infinite sequence at the machine's step: under a world that applies the operations of an infinite behaviour one
by one (host operations as words, pin events at their pins), `n` steps give what the behaviour's first `n` operations
give. -/
def Obligations.StepsFollowInfiniteBehaviour : Prop :=
  ∀ (op : Nat → Instr) (n : Nat) (s : State), (∀ k, (op k).wellFormed = true) →
    stepsUnder (fun k => stimulusOf (op k)) n s = (Behaviour.infinite op).stateAfter n s

/-- R160: no operation faults; every well-formed operation completes from every state, but RD of a register number that
R140 calls reserved, which the model refuses by name. -/
def Obligations.EveryOperationCompletes : Prop :=
  (∀ (i : Instr) (s : State) (f : Fault), exec i s ≠ .fault f)
  ∧ (∀ (i : Instr) (s : State), i.wellFormed = true → (∀ rr, i = .rd rr → implementedReg rr = true) →
      ∃ t, exec i s = .next t)
  ∧ (∀ (rr : BitVec 8) (s : State), implementedReg rr = false → exec (.rd rr) s = .refused (.reservedRegister rr))

/-! ### Reset -/

/-- R30: the state after reset, for every setting of the parameters of R5; and the machine's reset state is one of
these. -/
def Obligations.ResetValues : Prop :=
  (∀ (p : Params) (k : Fin 7),
    let s := State.resetWith p
    s.cnt = 0 ∧ s.ext = 0 ∧ s.ovfPend = false ∧ s.ignTs = 0 ∧ s.ignPend = false ∧ s.crkTs = 0 ∧ s.crkPend = false
    ∧ s.suppress = false ∧ s.res.get k = .dash ∧ s.dig.get k = segPattern p .dash ∧ s.pos = 0 ∧ s.mask = 0b0000001
    ∧ s.ms = 0 ∧ s.selOut = allOff p ∧ s.segOut = segPattern p .dash ∧ s.trace = [] ∧ s.params = p)
  ∧ ∃ p, State.reset = State.resetWith p

/-- R180: RST puts every item at its reset value, whatever the state before, empties the trace and leaves the parameters.
(The three fields taken from `t` are the model's own, no items of R10.) -/
def Obligations.RstRestoresReset : Prop :=
  ∀ s : State, ∃ t, exec .rst s = .next t
    ∧ t = { State.resetWith s.params with inputs := t.inputs, draws := t.draws, readData := t.readData }

/-- The model's choice (notes/assumptions/2.md, 5.md, 6.md): RST leaves the operations still to come, the count of draws and
the last value returned to the host. -/
def Obligations.RstLeavesTheModelsOwnFields : Prop :=
  ∀ s : State, ∃ t, exec .rst s = .next t ∧ t.inputs = s.inputs ∧ t.draws = s.draws ∧ t.readData = s.readData

/-- R182: the first RTK after reset selects position 6 and shows DIG[6] = PAT(DASH); a CONV with no IGN yet gives all
dashes. -/
def Obligations.FirstStepsAfterReset : Prop :=
  ∀ p : Params,
    (∃ t, exec .rtk (State.resetWith p) = .next t ∧ t.pos = 6 ∧ t.segOut = segPattern p .dash
      ∧ ∀ j : Fin 7, lineActive p t.selOut j = true ↔ j = 6)
    ∧ ∃ t, exec .conv (State.resetWith p) = .next t ∧ ∀ k : Fin 7, t.res.get k = .dash

/-! ### CAP -/

/-- R80: the counter advances by one modulo 2^16; OVF_PEND is set on the wrap only; nothing else changes. -/
def Obligations.CountTick : Prop :=
  ∀ s : State, ∃ t, exec .ctk s = .next t ∧ t = { s with cnt := t.cnt, ovfPend := t.ovfPend }
    ∧ t.cnt.toNat = (s.cnt.toNat + 1) % 2 ^ 16
    ∧ (t.ovfPend = true ↔ s.ovfPend = true ∨ s.cnt = 0xFFFF)

/-- R81: a pending overflow is served, EXT advancing modulo 256; with none pending nothing changes. -/
def Obligations.OverflowService : Prop :=
  ∀ s : State, ∃ t, exec .ovs s = .next t ∧ t = { s with ext := t.ext, ovfPend := false }
    ∧ (s.ovfPend = true → t.ext.toNat = (s.ext.toNat + 1) % 2 ^ 8)
    ∧ (s.ovfPend = false → t = s)

/-- R82: the timestamp is the three bytes CNT low, CNT high, EXT; the count restarts, the flag is set, the suppression
lifted; OVF_PEND, the crank event and everything else stay. -/
def Obligations.IgnitionEdge : Prop :=
  ∀ s : State, ∃ t, exec .ign s = .next t
    ∧ t = { s with ignTs := t.ignTs, cnt := 0, ext := 0, ignPend := true, suppress := false }
    ∧ t.ignTs.extractLsb' 0 8 = s.cnt.extractLsb' 0 8
    ∧ t.ignTs.extractLsb' 8 8 = s.cnt.extractLsb' 8 8
    ∧ t.ignTs.extractLsb' 16 8 = s.ext
    ∧ t.ignTs.toNat = s.ext.toNat * 65536 + s.cnt.toNat

/-- R83: a crank edge is ignored while SUPPRESS is set; else it captures the same three bytes, sets its flag and arms the
suppression, and leaves the count running. -/
def Obligations.CrankEdge : Prop :=
  ∀ s : State,
    (s.suppress = true → exec .crk s = .next s)
    ∧ (s.suppress = false → ∃ t, exec .crk s = .next t
        ∧ t = { s with crkTs := t.crkTs, crkPend := true, suppress := true }
        ∧ t.crkTs.extractLsb' 0 8 = s.cnt.extractLsb' 0 8
        ∧ t.crkTs.extractLsb' 8 8 = s.cnt.extractLsb' 8 8
        ∧ t.crkTs.extractLsb' 16 8 = s.ext)

/-- R83 (c): "at most one CRK is accepted between two IGN, whatever the host does". -/
def Obligations.OneCrankBetweenIgnitions : Prop :=
  ∀ (ops : List Instr) (s t : State), s.suppress = true → (∀ i ∈ ops, i ≠ .ign ∧ i ≠ .rst) →
    runOps ops s = .next t → t.suppress = true ∧ t.crkTs = s.crkTs ∧ (t.crkPend = true → s.crkPend = true)

/-- R32 (derived in the spec): "SUPPRESS = 1 implies that a CRK has been accepted since the last IGN or RST". -/
def Obligations.SuppressComesFromAcceptedCrank : Prop :=
  ∀ (p : Params) (ops : List Instr) (t : State), runOps ops (State.resetWith p) = .next t → t.suppress = true →
    ∃ before after u, ops = before ++ .crk :: after ∧ runOps before (State.resetWith p) = .next u
      ∧ u.suppress = false ∧ ∀ i ∈ after, i ≠ .ign ∧ i ≠ .rst

/-- R85 (derived in the spec): the invariant of the race "which RST establishes". -/
def Obligations.RaceInvariantAfterReset : Prop :=
  (∀ p : Params, EpochInv (State.resetWith p) Epoch.start)
  ∧ ∀ s : State, ∃ t, exec .rst s = .next t ∧ EpochInv t Epoch.start

/-- R85 (derived in the spec): "(EXT + OVF_PEND) * 65536 + CNT - T = 65536 * (c - l) modulo 2^24, which RST establishes
and every operation keeps". -/
def Obligations.RaceInvariantKept : Prop :=
  ∀ (i : Instr) (s t : State) (e : Epoch), EpochInv s e → exec i s = .next t → EpochInv t (epochAfter i s e)

/-- R85 (derived in the spec): an IGN or an accepted CRK stores (T + 65536 * (c - p - l)) mod 2^24. -/
def Obligations.CaptureStoresRaceFormula : Prop :=
  ∀ (s : State) (e : Epoch), EpochInv s e →
    (∃ t, exec .ign s = .next t ∧ (t.ignTs.toNat : Int) = raceFormula e s.ovfPend)
    ∧ (s.suppress = false → ∃ t, exec .crk s = .next t ∧ (t.crkTs.toNat : Int) = raceFormula e s.ovfPend)

/-- R185 (derived in the spec): "Under `PromptOVS` every capture is exact modulo 2^24", for every behaviour from reset,
T counted off the sequence of operations alone. -/
def Obligations.PromptServiceMakesCapturesExact : Prop :=
  ∀ (p : Params) (ops : List Instr) (t : State),
    (runOps (ops ++ [.ign]) (State.resetWith p) = .next t → promptOVS (ops ++ [.ign]) (State.resetWith p) = true →
      t.ignTs.toNat = ticksSinceEpoch ops % 2 ^ 24)
    ∧ ∀ u, runOps ops (State.resetWith p) = .next u → u.suppress = false →
        runOps (ops ++ [.crk]) (State.resetWith p) = .next t → promptOVS (ops ++ [.crk]) (State.resetWith p) = true →
        t.crkTs.toNat = ticksSinceEpoch ops % 2 ^ 24

/-- R185, R85 (derived in the spec): a step before which no wanted overflow service is outstanding keeps an exact epoch
exact, from every state: the invariant of R85 holds on, with no stale request and no lost wrap. -/
def Obligations.PromptStepKeepsCapturesExact : Prop :=
  ∀ (s t : State) (e : Epoch), ExactEpoch s e → promptStep s = true → step s = .next t →
    ExactEpoch t (epochAfterStep s e)

/-- R81, R83: OVS twice is OVS once and CRK twice is CRK once, from every state. For OVS with a request pending and for an
accepted CRK, R45 says "not idempotent"; that the model follows R81 and R83 there is its choice (notes/assumptions/13.md).
R45 of the others: CTK and RTK are never idempotent, and IGN is not where it captures anything but 0. -/
def Obligations.PinEventsRepeated : Prop :=
  ∀ s : State,
    (∃ t, exec .ovs s = .next t ∧ exec .ovs t = .next t)
    ∧ (∃ t, exec .crk s = .next t ∧ exec .crk t = .next t)
    ∧ (∃ t u, exec .ctk s = .next t ∧ exec .ctk t = .next u ∧ u.cnt ≠ t.cnt)
    ∧ (∃ t u, exec .rtk s = .next t ∧ exec .rtk t = .next u ∧ u.pos ≠ t.pos)
    ∧ (s.cnt ≠ 0 ∨ s.ext ≠ 0 →
        ∃ t u, exec .ign s = .next t ∧ exec .ign t = .next u ∧ u.ignTs = 0 ∧ t.ignTs ≠ 0)

/-! ### CONV -/

/-- R100: CONV changes RES and nothing else of the block, not the pending flags and not DIG. The model's choice
(notes/assumptions/5.md): the count of draws moves by three where R106 draws and not otherwise, and the digits drawn are
the next three free values. -/
def Obligations.ConvChangesOnlyResults : Prop :=
  ∀ s : State, ∃ t, exec .conv s = .next t ∧ t = { s with res := t.res, draws := t.draws }
    ∧ (¬ (s.ignPend = true ∧ s.crkPend = true ∧ s.ignTs = 0) → t.draws = s.draws)
    ∧ (s.ignPend = true ∧ s.crkPend = true ∧ s.ignTs = 0 → t.draws = s.draws + 3
        ∧ ∀ k : Fin 7, 4 ≤ k.val → t.res.get k = .digit (Config.freeDigit (s.draws + (k.val - 4))))

/-- R109: with no ignition event every position is the dash, whatever the rest of the state. -/
def Obligations.ConvWithoutIgnition : Prop :=
  ∀ s : State, s.ignPend = false →
    ∃ t, exec .conv s = .next t ∧ t = { s with res := t.res } ∧ ∀ k : Fin 7, t.res.get k = .dash

/-- R108: with an ignition event and no crank event the three advance positions are the dash, whatever CRK_TS holds. -/
def Obligations.ConvWithoutCrank : Prop :=
  ∀ s : State, s.ignPend = true → s.crkPend = false →
    ∃ t, exec .conv s = .next t ∧ t = { s with res := t.res } ∧ ∀ k : Fin 7, 4 ≤ k.val → t.res.get k = .dash

/-- R103: a plausible interval gives the four low decimal digits of IGNITION_FACTOR divu its, crank event or not. -/
def Obligations.ConvPlausibleRpm : Prop :=
  ∀ s : State, s.ignPend = true → s.params.minCount.toNat ≤ s.ignTs.toNat →
    ∃ t, exec .conv s = .next t ∧ t = { s with res := t.res }
      ∧ ∀ k : Fin 7, k.val < 4 → t.res.get k = decimalDigit (s.params.ignitionFactor.toNat / s.ignTs.toNat) k.val

/-- R104: an interval below MINCOUNT gives four nines, crank event or not. -/
def Obligations.ConvImplausibleRpm : Prop :=
  ∀ s : State, s.ignPend = true → s.ignTs.toNat < s.params.minCount.toNat →
    ∃ t, exec .conv s = .next t ∧ t = { s with res := t.res, draws := t.draws }
      ∧ ∀ k : Fin 7, k.val < 4 → t.res.get k = .digit 9

/-- R105: with a crank event and a non-zero interval the advance digits are the three low decimal digits of
(180 * cts divu its - 28) mod 2^32, below MINCOUNT or not; the product does not wrap (R110). -/
def Obligations.ConvAdvanceDigits : Prop :=
  ∀ s : State, s.ignPend = true → s.crkPend = true → s.ignTs ≠ 0 →
    ∃ t, exec .conv s = .next t ∧ t = { s with res := t.res }
      ∧ ∀ k : Fin 7, 4 ≤ k.val →
        t.res.get k
          = decimalDigit ((180 * s.crkTs.toNat / s.ignTs.toNat + 2 ^ 32 - 28) % 2 ^ 32) (k.val - 4)

/-- R105 (a) (derived in the spec): for q below 28 the digits shown are those of 268 + q. -/
def Obligations.NegativeAdvanceShows268 : Prop :=
  ∀ s : State, s.ignPend = true → s.crkPend = true → s.ignTs ≠ 0 → 180 * s.crkTs.toNat / s.ignTs.toNat < 28 →
    ∃ t, exec .conv s = .next t
      ∧ ∀ k : Fin 7, 4 ≤ k.val →
        t.res.get k = decimalDigit (268 + 180 * s.crkTs.toNat / s.ignTs.toNat) (k.val - 4)

/-- R106: with a crank event and interval 0, CONV completes, the RPM digits are nines and each advance digit is some digit
of 0 to 9; nothing else of the block is affected. -/
def Obligations.ConvZeroIntervalDraws : Prop :=
  ∀ s : State, s.ignPend = true → s.crkPend = true → s.ignTs = 0 →
    ∃ t, exec .conv s = .next t ∧ t = { s with res := t.res, draws := t.draws }
      ∧ (∀ k : Fin 7, k.val < 4 → t.res.get k = .digit 9)
      ∧ ∀ k : Fin 7, 4 ≤ k.val → ∃ d : Fin 10, t.res.get k = .digit d

/-- R107: digits(v, n) are the decimal digits, least significant first, and denote v mod 10^n. -/
def Obligations.DigitsAreDecimal : Prop :=
  ∀ (n : Nat) (v : Word32),
    (∀ k : Fin n, (digits n v).get k = decimalDigit v.toNat k.val)
    ∧ decimalValue (digits n v).toList = v.toNat % 10 ^ n

/-- R111 (derived in the spec): for an advance A of 0 to 152 and an interval of 180 or more, the crank timestamp
ceil((A + 28) * its / 180) is converted back to the digits of A. -/
def Obligations.AdvanceRoundTrip : Prop :=
  ∀ (s : State) (a : Nat), a ≤ 152 → s.ignPend = true → s.crkPend = true → 180 ≤ s.ignTs.toNat →
    s.crkTs.toNat = ((a + 28) * s.ignTs.toNat + 179) / 180 →
    ∃ t, exec .conv s = .next t ∧ ∀ k : Fin 7, 4 ≤ k.val → t.res.get k = decimalDigit a (k.val - 4)

/-- R111 (derived in the spec): every law the source states of the converter, for every setting of the parameters. -/
def Obligations.ConverterObeysItsLaws : Prop := ∀ p : Params, ConverterLaws p

/-- R112: the converter keeps no state of its own: two states with the same flags, timestamps and parameters (and, for the
draws of R106, the same count of draws) give the same results, whatever RES and the rest hold. -/
def Obligations.ConvKeepsNoState : Prop :=
  ∀ s u : State, s.ignPend = u.ignPend → s.ignTs = u.ignTs → s.crkPend = u.crkPend → s.crkTs = u.crkTs →
    s.params = u.params → s.draws = u.draws →
    ∃ t v, exec .conv s = .next t ∧ exec .conv u = .next v ∧ t.res = v.res

/-! ### MUX -/

/-- R120: POS goes down by one and wraps from 0 to 6, MASK rotates right, MS counts; the outputs are blank, select,
pattern in that order; nothing else changes. -/
def Obligations.RefreshTick : Prop :=
  ∀ s : State, ∃ t, exec .rtk s = .next t
    ∧ t = { s with pos := t.pos, mask := t.mask, ms := t.ms, selOut := t.selOut, segOut := t.segOut, trace := t.trace }
    ∧ t.pos.val = (if s.pos.val = 0 then 6 else s.pos.val - 1)
    ∧ (∀ j, j < 7 → t.mask.getLsbD j = s.mask.getLsbD ((j + 1) % 7))
    ∧ t.ms.toNat = (s.ms.toNat + 1) % 2 ^ 16
    ∧ t.selOut = driveSelect s.params t.mask
    ∧ t.segOut = s.dig.get t.pos
    ∧ t.trace = s.trace ++ [.sel (allOff s.params), .sel (driveSelect s.params t.mask), .seg (s.dig.get t.pos)]

/-- R26: ALL_OFF puts every select line at its inactive level; drive(m) puts exactly the lines of `m` at their active
level, active low or active high. -/
def Obligations.SelectLinePolarity : Prop :=
  ∀ (p : Params) (m : SelectMask) (k : Fin 7),
    lineActive p (allOff p) k = false ∧ lineActive p (driveSelect p m) k = m.getLsbD k.val
    ∧ (p.selActiveLow = true → allOff p = 0x7F) ∧ (p.selActiveLow = false → allOff p = 0x00)

/-- R121: TKRST zeroes MS and changes nothing else. -/
def Obligations.TickerReset : Prop :=
  ∀ s : State, exec .tkrst s = .next { s with ms := 0 }

/-- R122 (derived in the spec): seven RTK select each position exactly once, return POS and MASK to their values and leave
DIG; and the seven after them drive the same outputs again. -/
def Obligations.RefreshHasPeriodSeven : Prop :=
  ∀ s : State,
    (∀ k : Fin 7, ∃ n t, 1 ≤ n ∧ n ≤ 7 ∧ runOps (repeatOp n .rtk) s = .next t ∧ t.pos = k
      ∧ ∀ m u, 1 ≤ m → m ≤ 7 → runOps (repeatOp m .rtk) s = .next u → u.pos = k → m = n)
    ∧ ∃ t u frame, runOps frameOps s = .next t ∧ t.pos = s.pos ∧ t.mask = s.mask ∧ t.dig = s.dig
      ∧ runOps frameOps t = .next u ∧ frame.length = 21 ∧ t.trace = s.trace ++ frame ∧ u.trace = t.trace ++ frame

/-- R124 (MS counts RTK since the last TKRST or RST, modulo 2^16, skipping none). -/
def Obligations.TickerCountsRefreshTicks : Prop :=
  ∀ (ops : List Instr) (s t : State), (∀ i ∈ ops, i ≠ .tkrst ∧ i ≠ .rst) → runOps ops s = .next t →
    t.ms.toNat = (s.ms.toNat + ops.count .rtk) % 2 ^ 16

/-- R50 (derived in the spec): a byte written to DIG[i] does not change SEG_OUT by itself, and is on the segment lines,
with position i selected, within seven RTK. -/
def Obligations.WrittenPatternShownWithinSevenTicks : Prop :=
  ∀ (s : State) (i : BitVec 4) (dd : Byte) (h : i.toNat < 7),
    (∃ u, exec (.wrdig i dd) s = .next u ∧ u.segOut = s.segOut)
    ∧ ∃ n t, 1 ≤ n ∧ n ≤ 7 ∧ runOps (.wrdig i dd :: repeatOp n .rtk) s = .next t
        ∧ t.pos = ⟨i.toNat, h⟩ ∧ t.segOut = dd

/-- R123 (derived in the spec): under the display's invariant exactly the line of POS is active once a tick has occurred,
and none before. -/
def Obligations.ExactlyOnePositionSelected : Prop :=
  ∀ s : State, DisplayInv s →
    (s.trace ≠ [] → ∀ k : Fin 7, lineActive s.params s.selOut k = true ↔ k = s.pos)
    ∧ (s.trace = [] → ∀ k : Fin 7, lineActive s.params s.selOut k = false)

/-- R30, R24: the invariant of the display holds after reset, for every setting of the parameters. -/
def Obligations.DisplayInvariantAfterReset : Prop :=
  DisplayInv State.reset ∧ ∀ p : Params, DisplayInv (State.resetWith p)

/-- R24, R31: every step keeps the invariant of the display (MASK = 1 << POS, the latches hold the last values of the
trace, three pairs for each tick), from every state that has it. -/
def Obligations.DisplayInvariantKept : Prop :=
  ∀ s t : State, DisplayInv s → step s = .next t → DisplayInv t

/-! ### The host port -/

/-- R140: RD returns the whole register, zero-extended, and changes no state of the block (`readData` is where the model
keeps what the host was returned, notes/assumptions/6.md); a reserved number is refused by the model, and returns 0 and
changes no state on the hardware. -/
def Obligations.ReadReturnsRegister : Prop :=
  ∀ s : State,
    exec (.rd 0x00) s = .next { s with readData := some (statusView s) }
    ∧ exec (.rd 0x01) s = .next { s with readData := some (BitVec.ofNat 32 s.ignTs.toNat) }
    ∧ exec (.rd 0x02) s = .next { s with readData := some (BitVec.ofNat 32 s.crkTs.toNat) }
    ∧ exec (.rd 0x03) s = .next { s with readData := some (BitVec.ofNat 32 s.ms.toNat) }
    ∧ (∀ k : Fin 7, exec (.rd (BitVec.ofNat 8 (0x10 + k.val))) s
        = .next { s with readData := some (BitVec.ofNat 32 (s.dig.get k).toNat) })
    ∧ (∀ k : Fin 7, exec (.rd (BitVec.ofNat 8 (0x20 + k.val))) s
        = .next { s with readData := some (BitVec.ofNat 32 (codeBits (s.res.get k)).toNat) })
    ∧ ∀ rr : BitVec 8, implementedReg rr = false →
        exec (.rd rr) s = .refused (.reservedRegister rr)
        ∧ ∀ rest, s.inputs = .host (encode (.rd rr)) :: rest →
            hardwareStep s = { s with inputs := rest, readData := some 0 }

/-- R27: STATUS has IGN_PEND, CRK_PEND and SUPPRESS in bits 0, 1 and 2, and reads 0 above. -/
def Obligations.StatusBits : Prop :=
  ∀ s : State, (statusView s).getLsbD 0 = s.ignPend ∧ (statusView s).getLsbD 1 = s.crkPend
    ∧ (statusView s).getLsbD 2 = s.suppress ∧ ∀ j, 3 ≤ j → (statusView s).getLsbD j = false

/-- R141: WRDIG stores the byte unchanged at position i, and nothing else changes; an index of 7 to 15 is refused. -/
def Obligations.WriteDigit : Prop :=
  ∀ (s : State) (i : BitVec 4) (dd : Byte),
    (∀ h : i.toNat < 7, ∃ t, exec (.wrdig i dd) s = .next t ∧ t = { s with dig := t.dig }
      ∧ t.dig.get ⟨i.toNat, h⟩ = dd ∧ ∀ k : Fin 7, k.val ≠ i.toNat → t.dig.get k = s.dig.get k)
    ∧ (7 ≤ i.toNat → exec (.wrdig i dd) s = .refused (.reservedWord .index))

/-- R142: CMT stores SEG(RES[i]) at position i, and nothing else changes, RES neither; an index of 7 to 15 is refused. -/
def Obligations.CommitDigit : Prop :=
  ∀ (s : State) (i : BitVec 4),
    (∀ h : i.toNat < 7, ∃ t, exec (.cmt i) s = .next t ∧ t = { s with dig := t.dig }
      ∧ t.dig.get ⟨i.toNat, h⟩ = segPattern s.params (s.res.get ⟨i.toNat, h⟩)
      ∧ ∀ k : Fin 7, k.val ≠ i.toNat → t.dig.get k = s.dig.get k)
    ∧ (7 ≤ i.toNat → exec (.cmt i) s = .refused (.reservedWord .index))

/-- R143: CLRP clears both pending flags, whatever they were, and nothing else; SUPPRESS and the timestamps stay. -/
def Obligations.ClearPending : Prop :=
  ∀ s : State, exec .clrp s = .next { s with ignPend := false, crkPend := false }

/-- R188 (derived in the spec): what falls between CONV and CLRP is lost: after a CLRP and any operations without an IGN
(or RST), a CONV shows seven dashes; and while SUPPRESS stays set no crank event comes back. -/
def Obligations.ClearedEventsAreLost : Prop :=
  ∀ (s t : State) (ops : List Instr), (∀ i ∈ ops, i ≠ .ign ∧ i ≠ .rst) →
    runOps (.clrp :: ops ++ [.conv]) s = .next t →
    (∀ k : Fin 7, t.res.get k = .dash) ∧ t.ignTs = s.ignTs
    ∧ (s.suppress = true → t.crkPend = false ∧ t.crkTs = s.crkTs)

/-- R69, R144: one ITER with nothing between its members publishes the result of its CONV in all seven positions, clears
both pending flags and changes nothing else. -/
def Obligations.IterationPublishesReading : Prop :=
  ∀ s : State, ∃ c t, exec .conv s = .next c ∧ runOps iterOps s = .next t
    ∧ t = { c with dig := t.dig, ignPend := false, crkPend := false }
    ∧ ∀ k : Fin 7, t.dig.get k = segPattern s.params (c.res.get k)

/-- R45 (derived in the spec): RD, WRDIG, CMT, CLRP and TKRST are idempotent, and CONV is when no division by zero
occurs. R45's last sentence, of the pin events, is PinEventsRepeated (notes/assumptions/13.md). -/
def Obligations.HostOperationsIdempotent : Prop :=
  ∀ (i : Instr) (s t : State), i.isHost = true →
    (i = .conv → ¬ (s.ignPend = true ∧ s.crkPend = true ∧ s.ignTs = 0)) →
    exec i s = .next t → exec i t = .next t

/-! ### Whole-machine rules -/

/-- R29: "No operation outside this table touches an item": for each item, the operations that may change it; and no
operation changes the parameters or the operations still to come. -/
def Obligations.OnlyOwnersWrite : Prop :=
  ∀ (i : Instr) (s t : State), exec i s = .next t →
    (t.cnt ≠ s.cnt → i ∈ [.ctk, .ign, .rst])
    ∧ (t.ext ≠ s.ext → i ∈ [.ovs, .ign, .rst])
    ∧ (t.ovfPend ≠ s.ovfPend → i ∈ [.ctk, .ovs, .rst])
    ∧ (t.ignTs ≠ s.ignTs → i ∈ [.ign, .rst])
    ∧ (t.ignPend ≠ s.ignPend → i ∈ [.ign, .clrp, .rst])
    ∧ (t.crkTs ≠ s.crkTs → i ∈ [.crk, .rst])
    ∧ (t.crkPend ≠ s.crkPend → i ∈ [.crk, .clrp, .rst])
    ∧ (t.suppress ≠ s.suppress → i ∈ [.crk, .ign, .rst])
    ∧ (t.res ≠ s.res → i ∈ [.conv, .rst])
    ∧ (t.dig ≠ s.dig → (∃ a dd, i = .wrdig a dd) ∨ (∃ a, i = .cmt a) ∨ i = .rst)
    ∧ ((t.pos ≠ s.pos ∨ t.mask ≠ s.mask) → i ∈ [.rtk, .rst])
    ∧ (t.ms ≠ s.ms → i ∈ [.rtk, .tkrst, .rst])
    ∧ ((t.selOut ≠ s.selOut ∨ t.segOut ≠ s.segOut ∨ t.trace ≠ s.trace) → i ∈ [.rtk, .rst])
    ∧ (t.draws ≠ s.draws → i = .conv) ∧ (t.readData ≠ s.readData → ∃ rr, i = .rd rr)
    ∧ t.params = s.params ∧ t.inputs = s.inputs

/-- R29, the readers' column: an operation that neither writes nor reads an item does the same whatever the item holds.
(The operations named on the left are the item's writers and readers.) -/
def Obligations.OnlyReadersDepend : Prop :=
  ∀ (i : Instr) (s : State),
    (∀ v, i ∉ [.ctk, .ign, .crk, .rst] →
      exec i { s with cnt := v } = mapNext (fun t => { t with cnt := v }) (exec i s))
    ∧ (∀ v, i ∉ [.ovs, .ign, .crk, .rst] →
      exec i { s with ext := v } = mapNext (fun t => { t with ext := v }) (exec i s))
    ∧ (∀ v, i ∉ [.ctk, .ovs, .rst] →
      exec i { s with ovfPend := v } = mapNext (fun t => { t with ovfPend := v }) (exec i s))
    ∧ (∀ v, i ∉ [.ign, .conv, .rst, .rd 0x01] →
      exec i { s with ignTs := v } = mapNext (fun t => { t with ignTs := v }) (exec i s))
    ∧ (∀ v, i ∉ [.ign, .clrp, .conv, .rst, .rd 0x00] →
      exec i { s with ignPend := v } = mapNext (fun t => { t with ignPend := v }) (exec i s))
    ∧ (∀ v, i ∉ [.crk, .conv, .rst, .rd 0x02] →
      exec i { s with crkTs := v } = mapNext (fun t => { t with crkTs := v }) (exec i s))
    ∧ (∀ v, i ∉ [.crk, .clrp, .conv, .rst, .rd 0x00] →
      exec i { s with crkPend := v } = mapNext (fun t => { t with crkPend := v }) (exec i s))
    ∧ (∀ v, i ∉ [.crk, .ign, .rst, .rd 0x00] →
      exec i { s with suppress := v } = mapNext (fun t => { t with suppress := v }) (exec i s))
    ∧ (∀ v, i ∉ [.conv, .rst] → (∀ a, i ≠ .cmt a) → (∀ rr, i ≠ .rd rr) →
      exec i { s with res := v } = mapNext (fun t => { t with res := v }) (exec i s))
    ∧ (∀ v, i ∉ [.rtk, .rst] → (∀ a dd, i ≠ .wrdig a dd) → (∀ a, i ≠ .cmt a) → (∀ rr, i ≠ .rd rr) →
      exec i { s with dig := v } = mapNext (fun t => { t with dig := v }) (exec i s))
    ∧ (∀ v, i ∉ [.rtk, .rst] →
      exec i { s with pos := v } = mapNext (fun t => { t with pos := v }) (exec i s))
    ∧ (∀ v, i ∉ [.rtk, .rst] →
      exec i { s with mask := v } = mapNext (fun t => { t with mask := v }) (exec i s))
    ∧ (∀ v, i ∉ [.rtk, .tkrst, .rst, .rd 0x03] →
      exec i { s with ms := v } = mapNext (fun t => { t with ms := v }) (exec i s))
    ∧ (∀ v w, i ∉ [.rtk, .rst] →
      exec i { s with selOut := v, segOut := w } = mapNext (fun t => { t with selOut := v, segOut := w }) (exec i s))

/-- R167 (derived in the spec): what a host word can and cannot do, at the step: it sets nothing to 1 in STATUS, leaves
CNT, EXT, OVF_PEND, the timestamps, SUPPRESS, POS, MASK and the outputs, and leaves MS or zeroes it. -/
def Obligations.HostAccessRights : Prop :=
  ∀ (s t : State) (w : OpWord) (rest : List Stimulus), s.inputs = .host w :: rest → step s = .next t →
    t.cnt = s.cnt ∧ t.ext = s.ext ∧ t.ovfPend = s.ovfPend ∧ t.ignTs = s.ignTs ∧ t.crkTs = s.crkTs
    ∧ t.suppress = s.suppress ∧ t.pos = s.pos ∧ t.mask = s.mask ∧ t.selOut = s.selOut ∧ t.segOut = s.segOut
    ∧ t.trace = s.trace ∧ t.params = s.params ∧ t.inputs = rest
    ∧ (t.ignPend = true → s.ignPend = true) ∧ (t.crkPend = true → s.crkPend = true)
    ∧ (t.ms = s.ms ∨ t.ms = 0)
    ∧ (t.res ≠ s.res → decode w = .ok .conv)
    ∧ (t.dig ≠ s.dig → ∃ a, decode w = .ok (.cmt a) ∨ ∃ dd, decode w = .ok (.wrdig a dd))
end

