-- ==== Sys2Proof/Laws/State.lean ====
section
/-! SUPPORT. What each named update of the state does to each field, one lemma a field. -/
namespace Sys2Proof.Machine

/-! ### takeInput -/

@[simp] theorem takeInput_cnt (s : State) : (takeInput s).cnt = s.cnt := rfl
@[simp] theorem takeInput_ext (s : State) : (takeInput s).ext = s.ext := rfl
@[simp] theorem takeInput_ovfPend (s : State) : (takeInput s).ovfPend = s.ovfPend := rfl
@[simp] theorem takeInput_ignTs (s : State) : (takeInput s).ignTs = s.ignTs := rfl
@[simp] theorem takeInput_ignPend (s : State) : (takeInput s).ignPend = s.ignPend := rfl
@[simp] theorem takeInput_crkTs (s : State) : (takeInput s).crkTs = s.crkTs := rfl
@[simp] theorem takeInput_crkPend (s : State) : (takeInput s).crkPend = s.crkPend := rfl
@[simp] theorem takeInput_suppress (s : State) : (takeInput s).suppress = s.suppress := rfl
@[simp] theorem takeInput_res (s : State) : (takeInput s).res = s.res := rfl
@[simp] theorem takeInput_dig (s : State) : (takeInput s).dig = s.dig := rfl
@[simp] theorem takeInput_pos (s : State) : (takeInput s).pos = s.pos := rfl
@[simp] theorem takeInput_mask (s : State) : (takeInput s).mask = s.mask := rfl
@[simp] theorem takeInput_ms (s : State) : (takeInput s).ms = s.ms := rfl
@[simp] theorem takeInput_selOut (s : State) : (takeInput s).selOut = s.selOut := rfl
@[simp] theorem takeInput_segOut (s : State) : (takeInput s).segOut = s.segOut := rfl
@[simp] theorem takeInput_trace (s : State) : (takeInput s).trace = s.trace := rfl
@[simp] theorem takeInput_params (s : State) : (takeInput s).params = s.params := rfl
@[simp] theorem takeInput_inputs (s : State) : (takeInput s).inputs = s.inputs.tail := rfl
@[simp] theorem takeInput_draws (s : State) : (takeInput s).draws = s.draws := rfl
@[simp] theorem takeInput_readData (s : State) : (takeInput s).readData = s.readData := rfl

/-! ### pushInput -/

@[simp] theorem pushInput_cnt (x : Stimulus) (s : State) : (pushInput x s).cnt = s.cnt := rfl
@[simp] theorem pushInput_ext (x : Stimulus) (s : State) : (pushInput x s).ext = s.ext := rfl
@[simp] theorem pushInput_ovfPend (x : Stimulus) (s : State) : (pushInput x s).ovfPend = s.ovfPend := rfl
@[simp] theorem pushInput_ignTs (x : Stimulus) (s : State) : (pushInput x s).ignTs = s.ignTs := rfl
@[simp] theorem pushInput_ignPend (x : Stimulus) (s : State) : (pushInput x s).ignPend = s.ignPend := rfl
@[simp] theorem pushInput_crkTs (x : Stimulus) (s : State) : (pushInput x s).crkTs = s.crkTs := rfl
@[simp] theorem pushInput_crkPend (x : Stimulus) (s : State) : (pushInput x s).crkPend = s.crkPend := rfl
@[simp] theorem pushInput_suppress (x : Stimulus) (s : State) : (pushInput x s).suppress = s.suppress := rfl
@[simp] theorem pushInput_res (x : Stimulus) (s : State) : (pushInput x s).res = s.res := rfl
@[simp] theorem pushInput_dig (x : Stimulus) (s : State) : (pushInput x s).dig = s.dig := rfl
@[simp] theorem pushInput_pos (x : Stimulus) (s : State) : (pushInput x s).pos = s.pos := rfl
@[simp] theorem pushInput_mask (x : Stimulus) (s : State) : (pushInput x s).mask = s.mask := rfl
@[simp] theorem pushInput_ms (x : Stimulus) (s : State) : (pushInput x s).ms = s.ms := rfl
@[simp] theorem pushInput_selOut (x : Stimulus) (s : State) : (pushInput x s).selOut = s.selOut := rfl
@[simp] theorem pushInput_segOut (x : Stimulus) (s : State) : (pushInput x s).segOut = s.segOut := rfl
@[simp] theorem pushInput_trace (x : Stimulus) (s : State) : (pushInput x s).trace = s.trace := rfl
@[simp] theorem pushInput_params (x : Stimulus) (s : State) : (pushInput x s).params = s.params := rfl
@[simp] theorem pushInput_inputs (x : Stimulus) (s : State) : (pushInput x s).inputs = x :: s.inputs := rfl
@[simp] theorem pushInput_draws (x : Stimulus) (s : State) : (pushInput x s).draws = s.draws := rfl
@[simp] theorem pushInput_readData (x : Stimulus) (s : State) : (pushInput x s).readData = s.readData := rfl

/-! ### outSel -/

@[simp] theorem outSel_cnt (v : SelectMask) (s : State) : (outSel v s).cnt = s.cnt := rfl
@[simp] theorem outSel_ext (v : SelectMask) (s : State) : (outSel v s).ext = s.ext := rfl
@[simp] theorem outSel_ovfPend (v : SelectMask) (s : State) : (outSel v s).ovfPend = s.ovfPend := rfl
@[simp] theorem outSel_ignTs (v : SelectMask) (s : State) : (outSel v s).ignTs = s.ignTs := rfl
@[simp] theorem outSel_ignPend (v : SelectMask) (s : State) : (outSel v s).ignPend = s.ignPend := rfl
@[simp] theorem outSel_crkTs (v : SelectMask) (s : State) : (outSel v s).crkTs = s.crkTs := rfl
@[simp] theorem outSel_crkPend (v : SelectMask) (s : State) : (outSel v s).crkPend = s.crkPend := rfl
@[simp] theorem outSel_suppress (v : SelectMask) (s : State) : (outSel v s).suppress = s.suppress := rfl
@[simp] theorem outSel_res (v : SelectMask) (s : State) : (outSel v s).res = s.res := rfl
@[simp] theorem outSel_dig (v : SelectMask) (s : State) : (outSel v s).dig = s.dig := rfl
@[simp] theorem outSel_pos (v : SelectMask) (s : State) : (outSel v s).pos = s.pos := rfl
@[simp] theorem outSel_mask (v : SelectMask) (s : State) : (outSel v s).mask = s.mask := rfl
@[simp] theorem outSel_ms (v : SelectMask) (s : State) : (outSel v s).ms = s.ms := rfl
@[simp] theorem outSel_selOut (v : SelectMask) (s : State) : (outSel v s).selOut = v := rfl
@[simp] theorem outSel_segOut (v : SelectMask) (s : State) : (outSel v s).segOut = s.segOut := rfl
@[simp] theorem outSel_trace (v : SelectMask) (s : State) : (outSel v s).trace = s.trace ++ [.sel v] := rfl
@[simp] theorem outSel_params (v : SelectMask) (s : State) : (outSel v s).params = s.params := rfl
@[simp] theorem outSel_inputs (v : SelectMask) (s : State) : (outSel v s).inputs = s.inputs := rfl
@[simp] theorem outSel_draws (v : SelectMask) (s : State) : (outSel v s).draws = s.draws := rfl
@[simp] theorem outSel_readData (v : SelectMask) (s : State) : (outSel v s).readData = s.readData := rfl

/-! ### outSeg -/

@[simp] theorem outSeg_cnt (v : Byte) (s : State) : (outSeg v s).cnt = s.cnt := rfl
@[simp] theorem outSeg_ext (v : Byte) (s : State) : (outSeg v s).ext = s.ext := rfl
@[simp] theorem outSeg_ovfPend (v : Byte) (s : State) : (outSeg v s).ovfPend = s.ovfPend := rfl
@[simp] theorem outSeg_ignTs (v : Byte) (s : State) : (outSeg v s).ignTs = s.ignTs := rfl
@[simp] theorem outSeg_ignPend (v : Byte) (s : State) : (outSeg v s).ignPend = s.ignPend := rfl
@[simp] theorem outSeg_crkTs (v : Byte) (s : State) : (outSeg v s).crkTs = s.crkTs := rfl
@[simp] theorem outSeg_crkPend (v : Byte) (s : State) : (outSeg v s).crkPend = s.crkPend := rfl
@[simp] theorem outSeg_suppress (v : Byte) (s : State) : (outSeg v s).suppress = s.suppress := rfl
@[simp] theorem outSeg_res (v : Byte) (s : State) : (outSeg v s).res = s.res := rfl
@[simp] theorem outSeg_dig (v : Byte) (s : State) : (outSeg v s).dig = s.dig := rfl
@[simp] theorem outSeg_pos (v : Byte) (s : State) : (outSeg v s).pos = s.pos := rfl
@[simp] theorem outSeg_mask (v : Byte) (s : State) : (outSeg v s).mask = s.mask := rfl
@[simp] theorem outSeg_ms (v : Byte) (s : State) : (outSeg v s).ms = s.ms := rfl
@[simp] theorem outSeg_selOut (v : Byte) (s : State) : (outSeg v s).selOut = s.selOut := rfl
@[simp] theorem outSeg_segOut (v : Byte) (s : State) : (outSeg v s).segOut = v := rfl
@[simp] theorem outSeg_trace (v : Byte) (s : State) : (outSeg v s).trace = s.trace ++ [.seg v] := rfl
@[simp] theorem outSeg_params (v : Byte) (s : State) : (outSeg v s).params = s.params := rfl
@[simp] theorem outSeg_inputs (v : Byte) (s : State) : (outSeg v s).inputs = s.inputs := rfl
@[simp] theorem outSeg_draws (v : Byte) (s : State) : (outSeg v s).draws = s.draws := rfl
@[simp] theorem outSeg_readData (v : Byte) (s : State) : (outSeg v s).readData = s.readData := rfl

/-! ### writeDig -/

@[simp] theorem writeDig_cnt (k : Fin 7) (b : Byte) (s : State) : (writeDig k b s).cnt = s.cnt := rfl
@[simp] theorem writeDig_ext (k : Fin 7) (b : Byte) (s : State) : (writeDig k b s).ext = s.ext := rfl
@[simp] theorem writeDig_ovfPend (k : Fin 7) (b : Byte) (s : State) : (writeDig k b s).ovfPend = s.ovfPend := rfl
@[simp] theorem writeDig_ignTs (k : Fin 7) (b : Byte) (s : State) : (writeDig k b s).ignTs = s.ignTs := rfl
@[simp] theorem writeDig_ignPend (k : Fin 7) (b : Byte) (s : State) : (writeDig k b s).ignPend = s.ignPend := rfl
@[simp] theorem writeDig_crkTs (k : Fin 7) (b : Byte) (s : State) : (writeDig k b s).crkTs = s.crkTs := rfl
@[simp] theorem writeDig_crkPend (k : Fin 7) (b : Byte) (s : State) : (writeDig k b s).crkPend = s.crkPend := rfl
@[simp] theorem writeDig_suppress (k : Fin 7) (b : Byte) (s : State) : (writeDig k b s).suppress = s.suppress := rfl
@[simp] theorem writeDig_res (k : Fin 7) (b : Byte) (s : State) : (writeDig k b s).res = s.res := rfl
@[simp] theorem writeDig_dig (k : Fin 7) (b : Byte) (s : State) : (writeDig k b s).dig = s.dig.set k.val b k.isLt := rfl
@[simp] theorem writeDig_pos (k : Fin 7) (b : Byte) (s : State) : (writeDig k b s).pos = s.pos := rfl
@[simp] theorem writeDig_mask (k : Fin 7) (b : Byte) (s : State) : (writeDig k b s).mask = s.mask := rfl
@[simp] theorem writeDig_ms (k : Fin 7) (b : Byte) (s : State) : (writeDig k b s).ms = s.ms := rfl
@[simp] theorem writeDig_selOut (k : Fin 7) (b : Byte) (s : State) : (writeDig k b s).selOut = s.selOut := rfl
@[simp] theorem writeDig_segOut (k : Fin 7) (b : Byte) (s : State) : (writeDig k b s).segOut = s.segOut := rfl
@[simp] theorem writeDig_trace (k : Fin 7) (b : Byte) (s : State) : (writeDig k b s).trace = s.trace := rfl
@[simp] theorem writeDig_params (k : Fin 7) (b : Byte) (s : State) : (writeDig k b s).params = s.params := rfl
@[simp] theorem writeDig_inputs (k : Fin 7) (b : Byte) (s : State) : (writeDig k b s).inputs = s.inputs := rfl
@[simp] theorem writeDig_draws (k : Fin 7) (b : Byte) (s : State) : (writeDig k b s).draws = s.draws := rfl
@[simp] theorem writeDig_readData (k : Fin 7) (b : Byte) (s : State) : (writeDig k b s).readData = s.readData := rfl

/-! ### returnData -/

@[simp] theorem returnData_cnt (v : Word32) (s : State) : (returnData v s).cnt = s.cnt := rfl
@[simp] theorem returnData_ext (v : Word32) (s : State) : (returnData v s).ext = s.ext := rfl
@[simp] theorem returnData_ovfPend (v : Word32) (s : State) : (returnData v s).ovfPend = s.ovfPend := rfl
@[simp] theorem returnData_ignTs (v : Word32) (s : State) : (returnData v s).ignTs = s.ignTs := rfl
@[simp] theorem returnData_ignPend (v : Word32) (s : State) : (returnData v s).ignPend = s.ignPend := rfl
@[simp] theorem returnData_crkTs (v : Word32) (s : State) : (returnData v s).crkTs = s.crkTs := rfl
@[simp] theorem returnData_crkPend (v : Word32) (s : State) : (returnData v s).crkPend = s.crkPend := rfl
@[simp] theorem returnData_suppress (v : Word32) (s : State) : (returnData v s).suppress = s.suppress := rfl
@[simp] theorem returnData_res (v : Word32) (s : State) : (returnData v s).res = s.res := rfl
@[simp] theorem returnData_dig (v : Word32) (s : State) : (returnData v s).dig = s.dig := rfl
@[simp] theorem returnData_pos (v : Word32) (s : State) : (returnData v s).pos = s.pos := rfl
@[simp] theorem returnData_mask (v : Word32) (s : State) : (returnData v s).mask = s.mask := rfl
@[simp] theorem returnData_ms (v : Word32) (s : State) : (returnData v s).ms = s.ms := rfl
@[simp] theorem returnData_selOut (v : Word32) (s : State) : (returnData v s).selOut = s.selOut := rfl
@[simp] theorem returnData_segOut (v : Word32) (s : State) : (returnData v s).segOut = s.segOut := rfl
@[simp] theorem returnData_trace (v : Word32) (s : State) : (returnData v s).trace = s.trace := rfl
@[simp] theorem returnData_params (v : Word32) (s : State) : (returnData v s).params = s.params := rfl
@[simp] theorem returnData_inputs (v : Word32) (s : State) : (returnData v s).inputs = s.inputs := rfl
@[simp] theorem returnData_draws (v : Word32) (s : State) : (returnData v s).draws = s.draws := rfl
@[simp] theorem returnData_readData (v : Word32) (s : State) : (returnData v s).readData = some v := rfl

end Sys2Proof.Machine
end

