-- ==== Sys2Proof/Laws/Exec.lean ====
section
/-! SUPPORT. What one operation can do, said once: the inversion of `exec`, and one equation for each operation that
always completes. -/
namespace Sys2Proof.Machine

/-! ### One equation for each operation -/

@[simp] theorem exec_ctk (s : State) : exec .ctk s = .next (countTick s) := rfl
@[simp] theorem exec_ovs (s : State) : exec .ovs s = .next (serveOverflow s) := rfl
@[simp] theorem exec_ign (s : State) : exec .ign s = .next (captureIgnition s) := rfl
@[simp] theorem exec_crk (s : State) : exec .crk s = .next (captureCrank s) := rfl
@[simp] theorem exec_conv (s : State) : exec .conv s = .next (runConverter s) := rfl
@[simp] theorem exec_rtk (s : State) : exec .rtk s = .next (refreshTick s) := rfl
@[simp] theorem exec_tkrst (s : State) : exec .tkrst s = .next (resetTicker s) := rfl
@[simp] theorem exec_clrp (s : State) : exec .clrp s = .next (clearPending s) := rfl
@[simp] theorem exec_rst (s : State) : exec .rst s = .next (resetBlock s) := rfl

/-- An index names a position exactly when it is 0 to 6. -/
theorem position?_of_le {i : BitVec 4} (h : i.toNat ≤ 6) :
    position? i = some ⟨i.toNat, Nat.lt_succ_of_le h⟩ := by
  simp [position?, Nat.lt_succ_of_le h]

theorem position?_of_gt {i : BitVec 4} (h : 7 ≤ i.toNat) : position? i = none := by
  simp [position?, Nat.not_lt.mpr h]

theorem exec_wrdig_of_le {i : BitVec 4} (h : i.toNat ≤ 6) (dd : Byte) (s : State) :
    exec (.wrdig i dd) s = .next (writeDig ⟨i.toNat, Nat.lt_succ_of_le h⟩ dd s) := by
  simp [exec, execWrdig, position?_of_le h]

theorem exec_cmt_of_le {i : BitVec 4} (h : i.toNat ≤ 6) (s : State) :
    exec (.cmt i) s = .next (writeDig ⟨i.toNat, Nat.lt_succ_of_le h⟩
      (segPattern s.params (s.res.get ⟨i.toNat, Nat.lt_succ_of_le h⟩)) s) := by
  simp [exec, execCmt, position?_of_le h]

/-- The register map is defined on exactly the numbers R140 implements. -/
theorem hostReg?_isSome (rr : BitVec 8) : (hostReg? rr).isSome = implementedReg rr := by
  revert rr; decide

/-- Everything one operation can do when it completes. -/
theorem exec_next_cases {i : Instr} {s t : State} (h : exec i s = .next t) :
    (∃ rr r, i = .rd rr ∧ hostReg? rr = some r ∧ t = returnData (readHostReg s r) s)
    ∨ (∃ a dd k, i = .wrdig a dd ∧ position? a = some k ∧ t = writeDig k dd s)
    ∨ (∃ a k, i = .cmt a ∧ position? a = some k ∧ t = writeDig k (segPattern s.params (s.res.get k)) s)
    ∨ (i = .conv ∧ t = runConverter s)
    ∨ (i = .clrp ∧ t = clearPending s)
    ∨ (i = .tkrst ∧ t = resetTicker s)
    ∨ (i = .ctk ∧ t = countTick s)
    ∨ (i = .ovs ∧ t = serveOverflow s)
    ∨ (i = .ign ∧ t = captureIgnition s)
    ∨ (i = .crk ∧ t = captureCrank s)
    ∨ (i = .rtk ∧ t = refreshTick s)
    ∨ (i = .rst ∧ t = resetBlock s) := by
  cases i with
  | rd rr =>
    simp only [exec, execRd] at h
    split at h
    · rename_i r hr
      cases h
      exact .inl ⟨rr, r, rfl, hr, rfl⟩
    · cases h
  | wrdig a dd =>
    simp only [exec, execWrdig] at h
    split at h
    · rename_i k hk
      cases h
      exact .inr (.inl ⟨a, dd, k, rfl, hk, rfl⟩)
    · cases h
  | cmt a =>
    simp only [exec, execCmt] at h
    split at h
    · rename_i k hk
      cases h
      exact .inr (.inr (.inl ⟨a, k, rfl, hk, rfl⟩))
    · cases h
  | _ =>
    simp only [exec_ctk, exec_ovs, exec_ign, exec_crk, exec_conv, exec_rtk, exec_tkrst, exec_clrp, exec_rst,
      Host.Outcome.next.injEq] at h
    subst h
    simp

/-! ### The step -/

@[simp] theorem toInstr_pinEvent (e : PinEvent) : e.toInstr.pinEvent? = some e := by cases e <;> rfl

theorem toInstr_of_pinEvent? {i : Instr} {e : PinEvent} (h : i.pinEvent? = some e) : e.toInstr = i := by
  cases i <;> simp [Instr.pinEvent?] at h <;> subst h <;> rfl

/-- What a step does, by what comes next. -/
theorem step_of_fetch_op {s : State} {i : Instr} (h : fetch s = .op i) : step s = exec i (takeInput s) := by
  simp [step, h]

theorem step_of_fetch_refused {s : State} {r : Refusal} (h : fetch s = .refused r) : step s = .refused r := by
  simp [step, h]

theorem step_of_fetch_idle {s : State} (h : fetch s = .idle) : step s = .next s := by simp [step, h]

/-- A step that answers a next state is idle or ran one operation. -/
theorem step_next_cases {s t : State} (h : step s = .next t) :
    (fetch s = .idle ∧ t = s) ∨ ∃ i, fetch s = .op i ∧ exec i (takeInput s) = .next t := by
  simp only [step] at h
  split at h
  · exact .inl ⟨‹_›, by cases h; rfl⟩
  · exact .inr ⟨_, ‹_›, h⟩
  · cases h

/-- The host's run, one step at a time. -/
theorem core_run_succ (k : Nat) (s : State) :
    Host.Core.run Sys2Proof.core (k + 1) s = (match step s with
      | .next t => Host.Core.run Sys2Proof.core k t
      | .fault f => .fault f
      | .refused r => .refused r : Host.Outcome State Fault Refusal) := by
  cases h : step s <;> simp [Host.Core.run, show core.step s = _ from h] <;> rfl

/-- No operation reads or writes the operations still to come. -/
theorem exec_inputs (i : Instr) (s : State) (v : List Stimulus) :
    exec i { s with inputs := v } = mapNext (fun t => { t with inputs := v }) (exec i s) := by
  cases i with
  | rd rr =>
    simp only [exec, execRd]
    split
    · rename_i r _
      cases r <;> rfl
    · rfl
  | wrdig a d => simp only [exec, execWrdig]; split <;> rfl
  | cmt a => simp only [exec, execCmt]; split <;> rfl
  | ovs => simp only [exec, execOvs, serveOverflow]; split <;> rfl
  | crk => simp only [exec, execCrk, captureCrank]; split <;> rfl
  | _ => rfl

/-! ### Sequences -/

@[simp] theorem runOps_nil (s : State) : runOps [] s = .next s := rfl

theorem runOps_cons (i : Instr) (rest : List Instr) (s : State) :
    runOps (i :: rest) s = match exec i s with
      | .next t => runOps rest t
      | .fault f => .fault f
      | .refused r => .refused r := rfl

/-- A sequence that completes completes at its first operation, and from there on. -/
theorem runOps_cons_next {i : Instr} {rest : List Instr} {s t : State} :
    runOps (i :: rest) s = .next t ↔ ∃ u, exec i s = .next u ∧ runOps rest u = .next t := by
  rw [runOps_cons]
  cases exec i s <;> simp

theorem runOps_append_next {xs ys : List Instr} {s t : State} :
    runOps (xs ++ ys) s = .next t ↔ ∃ u, runOps xs s = .next u ∧ runOps ys u = .next t := by
  induction xs generalizing s with
  | nil => simp
  | cons x xs ih =>
    simp only [List.cons_append, runOps_cons_next, ih]
    constructor
    · rintro ⟨u, hu, v, hv, ht⟩
      exact ⟨v, ⟨u, hu, hv⟩, ht⟩
    · rintro ⟨v, ⟨u, hu, hv⟩, ht⟩
      exact ⟨u, hu, v, hv, ht⟩

/-- A property every operation keeps is kept by every sequence of operations. -/
theorem runOps_keeps {P : State → Prop} {ops : List Instr}
    (keep : ∀ i ∈ ops, ∀ s t, P s → exec i s = .next t → P t) {s t : State} (hs : P s)
    (h : runOps ops s = .next t) : P t := by
  induction ops generalizing s with
  | nil => cases h; exact hs
  | cons i rest ih =>
    obtain ⟨u, hu, hr⟩ := runOps_cons_next.mp h
    exact ih (fun j hj => keep j (List.mem_cons_of_mem _ hj)) (keep i List.mem_cons_self s u hs hu) hr

end Sys2Proof.Machine
end

