-- ==== Sys2Proof/Laws/Behaviour.lean ====
section
/-! SUPPORT. Behaviours: their first operations, and one operation more. -/
namespace Sys2Proof.Machine

@[simp] theorem firstOps_finite (ops : List Instr) (n : Nat) : (Behaviour.finite ops).firstOps n = ops.take n := rfl

@[simp] theorem firstOps_infinite_zero (op : Nat → Instr) : (Behaviour.infinite op).firstOps 0 = [] := rfl

theorem firstOps_infinite_succ (op : Nat → Instr) (n : Nat) :
    (Behaviour.infinite op).firstOps (n + 1) = (Behaviour.infinite op).firstOps n ++ [op n] := by
  simp [Behaviour.firstOps, List.range_succ]

/-- An operation among the first `n` stands at some place below `n`. -/
theorem mem_firstOps_infinite {op : Nat → Instr} {n : Nat} {i : Instr} :
    i ∈ (Behaviour.infinite op).firstOps n ↔ ∃ k < n, op k = i := by
  simp [Behaviour.firstOps]

/-- A sequence and one operation more: the operation acts on the state the sequence left. -/
theorem runOps_concat (xs : List Instr) (x : Instr) (s : State) :
    runOps (xs ++ [x]) s = match runOps xs s with
      | .next t => exec x t
      | .fault f => .fault f
      | .refused r => .refused r := by
  induction xs generalizing s with
  | nil => simp only [List.nil_append, runOps_cons, runOps_nil]; cases exec x s <;> rfl
  | cons y ys ih =>
    rw [List.cons_append, runOps_cons, runOps_cons]
    cases exec y s with
    | next t => exact ih t
    | fault f => rfl
    | refused r => rfl

/-- A stimulus put before the others and taken off again leaves the state as it was. -/
@[simp] theorem takeInput_pushInput (x : Stimulus) (s : State) : takeInput (pushInput x s) = s := rfl

/-- A step after a stimulus is applied runs that stimulus. -/
theorem step_pushInput (x : Stimulus) (s : State) :
    step (pushInput x s) = match fetchStimulus x with
      | .idle => .next (pushInput x s)
      | .op i => exec i s
      | .refused r => .refused r := rfl

end Sys2Proof.Machine
end

