-- ==== Sys2Proof/Laws/Ops.lean ====
section
/-! SUPPORT. One lemma for each shared operation: the snapshot, the counters, the trace, the digits, the fields of a
word. -/
namespace Sys2Proof

/-! ### Words -/

@[simp] theorem opField_assemble (op a : BitVec 4) (d : Byte) : opField (assemble op a d) = op := by
  simp only [opField, assemble]
  ext k hk
  simp only [BitVec.getElem_extractLsb', BitVec.getLsbD_append]
  have h1 : ¬ 12 + k < 8 := by omega
  have h2 : ¬ 12 + k - 8 < 4 := by omega
  simp [h1, h2, show 12 + k - 8 - 4 = k by omega, hk]

@[simp] theorem aField_assemble (op a : BitVec 4) (d : Byte) : aField (assemble op a d) = a := by
  simp only [aField, assemble]
  ext k hk
  simp only [BitVec.getElem_extractLsb', BitVec.getLsbD_append]
  have h1 : ¬ 8 + k < 8 := by omega
  simp [h1, hk]

@[simp] theorem dField_assemble (op a : BitVec 4) (d : Byte) : dField (assemble op a d) = d := by
  simp only [dField, assemble]
  ext k hk
  simp only [BitVec.getElem_extractLsb', BitVec.getLsbD_append]
  simp [show k < 8 from hk]

/-- A word is its three fields. -/
theorem assemble_fields (w : OpWord) : assemble (opField w) (aField w) (dField w) = w := by
  simp only [opField, aField, dField, assemble]
  ext k hk
  simp only [BitVec.getElem_append]
  split
  · simp only [BitVec.getElem_extractLsb', Nat.zero_add, BitVec.getLsbD_eq_getElem hk]
  · split
    · simp only [BitVec.getElem_extractLsb', show 8 + (k - 8) = k by omega, BitVec.getLsbD_eq_getElem hk]
    · simp only [BitVec.getElem_extractLsb', show 12 + (k - 8 - 4) = k by omega, BitVec.getLsbD_eq_getElem hk]

namespace Machine

/-! ### CAP -/

/-- The snapshot is EXT :: CNT (10_state.md R16). -/
theorem snapshot_toNat (s : State) : (snapshot s).toNat = s.ext.toNat * 65536 + s.cnt.toNat := by
  have h : (s.cnt.extractLsb' 8 8 ++ s.cnt.extractLsb' 0 8 : BitVec 16) = s.cnt := by
    ext k hk
    simp only [BitVec.getElem_append]
    split
    · simp only [BitVec.getElem_extractLsb', Nat.zero_add, BitVec.getLsbD_eq_getElem hk]
    · simp only [BitVec.getElem_extractLsb', show 8 + (k - 8) = k by omega, BitVec.getLsbD_eq_getElem hk]
  have hc := s.cnt.isLt
  unfold snapshot
  rw [h, BitVec.toNat_append, Nat.shiftLeft_eq, Nat.mul_comm, ← Nat.two_pow_add_eq_or_of_lt hc]

/-- The snapshot's low byte, high byte and extension (20_memory.md R42). -/
theorem snapshot_bytes (s : State) :
    (snapshot s).extractLsb' 0 8 = s.cnt.extractLsb' 0 8 ∧ (snapshot s).extractLsb' 8 8 = s.cnt.extractLsb' 8 8
      ∧ (snapshot s).extractLsb' 16 8 = s.ext := by
  have hc := s.cnt.isLt
  have hx := s.ext.isLt
  refine ⟨?_, ?_, ?_⟩ <;> apply BitVec.eq_of_toNat_eq <;>
    simp only [BitVec.extractLsb'_toNat, snapshot_toNat, Nat.shiftRight_eq_div_pow] <;> omega

theorem wrapsNext_iff (c : BitVec 16) : wrapsNext c = true ↔ c.toNat = 65535 := by
  simp [wrapsNext, BitVec.toNat_eq]

/-! ### CONV -/

theorem divTen_toNat (k : Nat) (v : Word32) : (divTen k v).toNat = v.toNat / 10 ^ k := by
  induction k generalizing v with
  | zero => simp [divTen]
  | succ k ih => simp [divTen, ih, BitVec.toNat_udiv, Nat.div_div_eq_div_mul, Nat.pow_succ, Nat.mul_comm]

/-! ### MUX -/

theorem nextPos_val (p : Fin 7) : (nextPos p).val = (p.val + 6) % 7 := by revert p; decide

theorem ror7_shifted_one (p : Fin 7) : ror7 ((1 : SelectMask) <<< p.val) = (1 : SelectMask) <<< (nextPos p).val := by
  revert p; decide

theorem lastSel_append (xs ys : List OutWrite) : lastSel (xs ++ ys) = (lastSel ys).or (lastSel xs) := by
  induction xs with
  | nil => cases h : lastSel ys <;> simp [lastSel, h]
  | cons x xs ih => cases x <;> simp [lastSel, ih]

theorem lastSeg_append (xs ys : List OutWrite) : lastSeg (xs ++ ys) = (lastSeg ys).or (lastSeg xs) := by
  induction xs with
  | nil => cases h : lastSeg ys <;> simp [lastSeg, h]
  | cons x xs ih => cases x <;> simp [lastSeg, ih]

/-- Everything RTK does (42_multiplexer.md R120). -/
theorem refreshTick_eq (s : State) :
    refreshTick s =
      { s with
        pos := nextPos s.pos
        mask := ror7 s.mask
        ms := s.ms + 1
        selOut := driveSelect s.params (ror7 s.mask)
        segOut := s.dig.get (nextPos s.pos)
        trace := s.trace ++ [.sel (allOff s.params), .sel (driveSelect s.params (ror7 s.mask)),
          .seg (s.dig.get (nextPos s.pos))] } := by
  simp [refreshTick, outSel, outSeg]

end Machine

end Sys2Proof
end

