-- ==== Sys2Proof/Laws/Converter.lean ====
section
/-! SUPPORT. The converter's shared operations: the 32-bit view of a timestamp, the advance, where the RPM and advance digits
stand in RES, and the count of draws. -/
namespace Sys2Proof.Machine

/-- A timestamp read as 32 bits keeps its value (10_state.md R16). -/
theorem setWidth_toNat_timestamp (x : Timestamp) : (x.setWidth 32).toNat = x.toNat := by
  have := x.isLt
  rw [BitVec.toNat_setWidth]
  omega

theorem setWidth_timestamp_eq_zero (x : Timestamp) : x.setWidth 32 = 0 ↔ x = 0 := by
  rw [BitVec.toNat_eq, BitVec.toNat_eq, setWidth_toNat_timestamp]
  simp

/-- The advance of R105 as natural numbers: the product never wraps (R110), the subtraction of 28 may. -/
theorem advance_toNat (cts its : Timestamp) :
    (advance (cts.setWidth 32) (its.setWidth 32)).toNat = (180 * cts.toNat / its.toNat + 2 ^ 32 - 28) % 2 ^ 32 := by
  have hc := cts.isLt
  have h180 : BitVec.toNat (180 : Word32) = 180 := rfl
  have h28 : BitVec.toNat (28 : Word32) = 28 := rfl
  simp only [advance, angleScale, fwOffset, BitVec.toNat_sub, BitVec.toNat_udiv, BitVec.toNat_mul,
    setWidth_toNat_timestamp]
  rw [h180, h28, Nat.mod_eq_of_lt (show 180 * cts.toNat < 2 ^ 32 by omega)]
  congr 1
  generalize 180 * cts.toNat / its.toNat = q
  omega

/-- A conversion draws exactly in the case of R106. -/
theorem convDraws_iff (s : State) :
    convDraws s.ignPend (s.ignTs.setWidth 32) s.crkPend = true
      ↔ s.ignPend = true ∧ s.crkPend = true ∧ s.ignTs = 0 := by
  simp only [convDraws, Bool.and_eq_true, beq_iff_eq, setWidth_timestamp_eq_zero]
  tauto

/-- Outside that case only RES changes. -/
theorem runConverter_frame {s : State} (h : ¬ (s.ignPend = true ∧ s.crkPend = true ∧ s.ignTs = 0)) :
    runConverter s = { s with res := (runConverter s).res } := by
  rw [← convDraws_iff] at h
  simp [runConverter, h]

/-- Without an ignition event RES is all dashes (R109). -/
theorem runConverter_res_of_no_ignition {s : State} (h : s.ignPend = false) (k : Fin 7) :
    (runConverter s).res.get k = .dash := by
  simp [runConverter, convert, h, Vector.get_eq_getElem]

/-- RES[0..3] are the RPM digits (R101). -/
theorem runConverter_res_rpm {s : State} (h : s.ignPend = true) (k : Fin 7) (hk : k.val < 4) :
    (runConverter s).res.get k = (rpmDigits s.params (s.ignTs.setWidth 32)).get ⟨k.val, hk⟩ := by
  simp only [runConverter, convert, h, Vector.get_eq_getElem, if_true]
  erw [Vector.getElem_append_left hk]

/-- RES[4..6] are the advance digits (R101). -/
theorem runConverter_res_advance {s : State} (h : s.ignPend = true) (k : Fin 7) (hk : 4 ≤ k.val) :
    (runConverter s).res.get k =
      (if s.crkPend then advDigits (drawnDigits s.draws) (s.crkTs.setWidth 32) (s.ignTs.setWidth 32)
        else Vector.replicate 3 .dash).get ⟨k.val - 4, by omega⟩ := by
  simp only [runConverter, convert, h, Vector.get_eq_getElem, if_true]
  erw [Vector.getElem_append_right (hi := hk)]

/-- The drawn digits are free values, one after the other. -/
theorem drawnDigits_get (n : Nat) : ∀ k : Fin 3, (drawnDigits n).get k = .digit (Config.freeDigit (n + k.val))
  | 0 => rfl
  | 1 => rfl
  | 2 => rfl

end Sys2Proof.Machine
end

