-- ==== Sys2Proof/Laws/PerInstr.lean ====
section
/-! SUPPORT. Statements for all operations as syntax, one lemma a constructor. -/
namespace Sys2Proof.Laws

/-- Bit 15 of an operation's word is its class: 0 host, 1 pin event (30_encoding.md R61). -/
def ClassBit.Statement (i : Instr) : Prop := (encode i).getLsbD 15 = !i.isHost

/-- Bit 15 of an assembled word is bit 3 of its operation code. -/
theorem assemble_bit15 (op a : BitVec 4) (d : Byte) : (assemble op a d).getLsbD 15 = op.getLsbD 3 := by
  rw [assemble, BitVec.getLsbD_append, BitVec.getLsbD_append]
  simp

theorem ClassBit.rd (rr : BitVec 8) : ClassBit.Statement (.rd rr) := by
  rw [Statement, encode, assemble_bit15]; rfl
theorem ClassBit.wrdig (i : BitVec 4) (dd : Byte) : ClassBit.Statement (.wrdig i dd) := by
  rw [Statement, encode, assemble_bit15]; rfl
theorem ClassBit.cmt (i : BitVec 4) : ClassBit.Statement (.cmt i) := by
  rw [Statement, encode, assemble_bit15]; rfl
theorem ClassBit.conv : ClassBit.Statement .conv := rfl
theorem ClassBit.clrp : ClassBit.Statement .clrp := rfl
theorem ClassBit.tkrst : ClassBit.Statement .tkrst := rfl
theorem ClassBit.ctk : ClassBit.Statement .ctk := rfl
theorem ClassBit.ovs : ClassBit.Statement .ovs := rfl
theorem ClassBit.ign : ClassBit.Statement .ign := rfl
theorem ClassBit.crk : ClassBit.Statement .crk := rfl
theorem ClassBit.rtk : ClassBit.Statement .rtk := rfl
theorem ClassBit.rst : ClassBit.Statement .rst := rfl

end Sys2Proof.Laws
end

