-- ==== Sys2Proof/Tests/Slice0.lean ====
section
/-! SUPPORT. Tests of single steps, their expected results taken from 95_test_vectors.md and the rules' own examples, and
for each statement with hypotheses a witness that meets them together. -/
namespace Sys2Proof.Tests
open Sys2Proof.Machine

/-- The fixture of 95_test_vectors.md section 1: a made-up segment table, MINCOUNT 5532, active low. -/
def fixture : Params where
  ignitionFactor := 55312384
  minCount := 5532
  minCount_pos := by decide
  segDigits := #v[0xC0, 0xC1, 0xC2, 0xC3, 0xC4, 0xC5, 0xC6, 0xC7, 0xC8, 0xC9]
  segDash := 0xCD
  selActiveLow := true

/-- The reset state with the fixture. -/
def start : State := State.resetWith fixture

/-- The state after one operation (the same state where it does not complete). -/
def after (i : Instr) (s : State) : State :=
  match exec i s with
  | .next t => t
  | _ => s

/-- A state with the given capture registers, both events pending as said. -/
def captured (ip : Bool) (its : Timestamp) (cp : Bool) (cts : Timestamp) : State :=
  { start with ignPend := ip, ignTs := its, crkPend := cp, crkTs := cts }

/-- RES after a conversion of the given capture registers. -/
def converted (ip : Bool) (its : Timestamp) (cp : Bool) (cts : Timestamp) : List DigitCode :=
  (after .conv (captured ip its cp cts)).res.toList

/-! ### Well-formedness: an index of 7 or more is refused -/

theorem test_wellFormed_wrdig : (Instr.wrdig 6 0xFF).wellFormed = true ∧ (Instr.wrdig 7 0).wellFormed = false := by decide
theorem test_wellFormed_cmt : (Instr.cmt 6).wellFormed = true ∧ (Instr.cmt 15).wellFormed = false := by decide
theorem test_wellFormed_rd_reserved : (Instr.rd 0x04).wellFormed = true := by decide

/-! ### Decoding: words written out bit by bit from 30_encoding.md R61 and R64 (op, a, d) -/

theorem test_decode_rd : decode 0b0000000000010110 = .ok (.rd 0x16) := by decide
theorem test_decode_wrdig : decode 0b0001001101011011 = .ok (.wrdig 3 0x5B) := by decide
theorem test_decode_cmt : decode 0b0010001100000000 = .ok (.cmt 3) := by decide
theorem test_decode_conv : decode 0b0011000000000000 = .ok .conv := by decide
theorem test_decode_clrp : decode 0b0100000000000000 = .ok .clrp := by decide
theorem test_decode_tkrst : decode 0b0101000000000000 = .ok .tkrst := by decide
theorem test_decode_ctk : decode 0b1000000000000000 = .ok .ctk := by decide
theorem test_decode_ovs : decode 0b1001000000000000 = .ok .ovs := by decide
theorem test_decode_ign : decode 0b1010000000000000 = .ok .ign := by decide
theorem test_decode_crk : decode 0b1011000000000000 = .ok .crk := by decide
theorem test_decode_rtk : decode 0b1100000000000000 = .ok .rtk := by decide
theorem test_decode_rst : decode 0b1111000000000000 = .ok .rst := by decide

/-- The reserved words of 95_test_vectors.md section 8. -/
theorem test_decode_reserved :
    ([0x0100, 0x1700, 0x1F00, 0x2301, 0x2700, 0x3001, 0x3100, 0x6000, 0x7000, 0x8001, 0xD000, 0xE000, 0xFFFF] :
      List OpWord).all (fun w => (decode w).toOption.isNone) = true := by decide

/-! ### CAP (95_test_vectors.md section 3) -/

theorem test_ctk_wrap :
    let t := after .ctk { start with cnt := 0xFFFF }
    t.cnt = 0x0000 ∧ t.ovfPend = true := by decide
theorem test_ctk_carry : (after .ctk { start with cnt := 0x00FF, ovfPend := true }).cnt = 0x0100 := by decide
theorem test_ovs_wraps :
    let t := after .ovs { start with ext := 0xFF, ovfPend := true }
    t.ext = 0x00 ∧ t.ovfPend = false := by decide
theorem test_ovs_nothing_pending : after .ovs { start with ext := 0x05 } = { start with ext := 0x05 } := by decide
theorem test_ign_byte_order :
    let t := after .ign { start with cnt := 0x34AB, ext := 0x12, suppress := true }
    t.ignTs = 0x1234AB ∧ t.cnt = 0 ∧ t.ext = 0 ∧ t.ignPend = true ∧ t.suppress = false := by decide
theorem test_ign_keeps_request : (after .ign { start with ovfPend := true }).ovfPend = true := by decide
theorem test_crk_accepted :
    let t := after .crk { start with cnt := 0x0007, ext := 0x02, crkPend := true, crkTs := 0x64 }
    t.crkTs = 0x020007 ∧ t.crkPend = true ∧ t.suppress = true ∧ t.cnt = 0x0007 := by decide
theorem test_crk_ignored :
    let s := { start with cnt := 0x0100, suppress := true, crkTs := 0x64 }
    after .crk s = s := by decide

/-! ### CONV (95_test_vectors.md section 4) -/

/-- The source's end-to-end example, and the nines with the advance still computed. -/
theorem test_conv_whole :
    converted true 10000 true 9000 = [.digit 1, .digit 3, .digit 5, .digit 5, .digit 4, .digit 3, .digit 1]
      ∧ converted true 5531 true 5000 = [.digit 9, .digit 9, .digit 9, .digit 9, .digit 4, .digit 3, .digit 1] := by
  decide
/-- RPM of 10000 and more with MINCOUNT 1 (55312384 divu 843 = 65613), and a negative advance (q = 18). -/
theorem test_conv_pieces :
    (rpmDigits { fixture with minCount := 1, minCount_pos := by decide } 843).toList
        = [.digit 3, .digit 1, .digit 6, .digit 5]
      ∧ (digits 3 (advance 1000 10000)).toList = [.digit 6, .digit 8, .digit 2] := by decide

/-! ### MUX (95_test_vectors.md section 5) -/

theorem test_rtk_from_reset :
    let t := after .rtk { start with dig := start.dig.set 6 0xC1, ms := 249 }
    t.pos = 6 ∧ t.mask = 0b1000000 ∧ t.ms = 250 ∧ t.trace = [.sel 0x7F, .sel 0x3F, .seg 0xC1] := by decide
theorem test_rtk_active_high :
    let p : Params := { fixture with selActiveLow := false }
    let t := after .rtk { start with pos := 3, mask := 0b0001000, ms := 0xFFFF, params := p }
    t.trace = [.sel 0x00, .sel 0x04, .seg 0xCD] ∧ t.ms = 0 := by decide
theorem test_tkrst : after .tkrst { start with ms := 250 } = start := by decide

/-! ### Host port (95_test_vectors.md section 6) -/

/-- The state of the RD rows. -/
def readState : State :=
  { start with
    ignPend := true, suppress := true, ignTs := 0x1234AB, crkTs := 0x002328, ms := 0x00FA
    dig := #v[0xC1, 0xC3, 0xC5, 0xC5, 0xCD, 0xCD, 0xCD]
    res := #v[.digit 1, .digit 3, .digit 5, .digit 5, .dash, .dash, .dash] }

theorem test_rd_registers :
    ([0x00, 0x01, 0x02, 0x03, 0x10, 0x16, 0x23, 0x24] : List (BitVec 8)).map (fun n => (after (.rd n) readState).readData)
      = [some 0x00000005, some 0x001234AB, some 0x00002328, some 0x000000FA, some 0x000000C1, some 0x000000CD,
        some 0x00000005, some 0x00000010] := by decide
theorem test_rd_reserved : exec (.rd 0x17) readState = .refused (.reservedRegister 0x17) := by rfl
theorem test_wrdig : after (.wrdig 3 0x5B) start = { start with dig := start.dig.set 3 0x5B } := by decide
theorem test_cmt : (after (.cmt 3) { start with res := start.res.set 3 (.digit 9) }).dig[3] = 0xC9 := by decide
theorem test_clrp :
    after .clrp { start with ignPend := true, crkPend := true, suppress := true, ignTs := 0x002710 }
      = { start with suppress := true, ignTs := 0x002710 } := by decide

/-! ### Reset (95_test_vectors.md section 7) -/

theorem test_rst :
    let s := { readState with cnt := 0x1234, ext := 0x56, ovfPend := true, pos := 4, mask := 0b0010000 }
    after .rst { s with selOut := 0x6F, segOut := 0xC4, trace := [.seg 0xC4] } = start := by decide

/-! ### The step -/

theorem test_step_pin : step { start with inputs := [.pin .refreshTick] } = exec .rtk start := by rfl
theorem test_step_pin_word_on_host_port :
    step { start with inputs := [.host 0x8000] } = .refused (.pinWordOnHostPort 0x8000) := by rfl
theorem test_fetch_word : decodeTableWord 16 0x135B = some (.wrdig 3 0x5B) := by decide
theorem test_step_fetch_word : step (State.reset.withFetchWord 16 0x3000) = exec .conv State.reset := by rfl
theorem test_hardware_reserved_read :
    hardwareStep { start with inputs := [.host 0x0004] } = { start with readData := some 0 } := by decide

/-! ### Witnesses: the hypotheses of each statement, met together -/

theorem witness_EncodeOfDecode : decode 0x16FF = .ok (.wrdig 6 0xFF) := by decide
theorem witness_DecoderAgreesWithOpcodeTable :
    ∃ row ∈ opcodeTable, row.mnemonic = "CMT" ∧ rowMatches row 0x2600 = true ∧ rowMatches row 0x2700 = false := by decide
theorem witness_ReservedWordsRefused :
    ({ start with inputs := [.host 0x6000, .pin .countTick] } : State).inputs = .host 0x6000 :: [.pin .countTick]
      ∧ decode 0x6000 = .error .opcode ∧ (0xF000 : OpWord).getLsbD 15 = true := by decide
theorem witness_StepRunsTheNextOperation_host :
    ({ start with inputs := [.host 0x2600] } : State).inputs = .host 0x2600 :: [] ∧ decode 0x2600 = .ok (.cmt 6)
      ∧ (0x2600 : OpWord).getLsbD 15 = false := by decide
theorem witness_StepRunsTheNextOperation_pin :
    ({ start with inputs := [.pin .reset] } : State).inputs = .pin .reset :: [] := by decide
theorem witness_StepRunsTheNextOperation_word : decode (BitVec.ofNat 16 0xF000) = .ok .rst := by decide
theorem witness_NoInputLeavesTheState : start.inputs = [] := by decide
theorem witness_StepsAreTheOrderedSequence : ∀ i ∈ [Instr.ctk, .wrdig 6 0x5B, .rst], i.wellFormed = true := by decide
/-- An infinite behaviour that resets now and then. -/
theorem witness_BehaviourIsOneTotalOrder :
    let op : Nat → Instr := fun k => if k % 2 = 0 then .rst else .rd 0x26
    (∀ k, (op k).wellFormed = true ∧ ∀ rr, op k = .rd rr → implementedReg rr = true)
      ∧ (∃ t, (Behaviour.infinite op).stateAfter 2 start = .next t) ∧ [Instr.rst, .ctk].length ≤ 2
      ∧ (∀ k, k < 2 → op k = (fun j => if j < 2 then op j else .ctk) k) := by
  refine ⟨fun k => ?_, ⟨_, rfl⟩, by decide, fun k hk => by simp [hk]⟩
  by_cases h : k % 2 = 0
  · simp [h, Instr.wellFormed]
  · simp only [h, if_false, Instr.wellFormed, true_and, Instr.rd.injEq, forall_eq']
    decide
theorem witness_StepsFollowInfiniteBehaviour : ∀ k : Nat, ((fun _ => Instr.cmt 6) k).wellFormed = true := fun _ => rfl
theorem witness_EveryOperationCompletes :
    (Instr.rd 0x26).wellFormed = true ∧ implementedReg 0x26 = true ∧ implementedReg 0x27 = false
      ∧ implementedReg 0x04 = false ∧ implementedReg 0x0F = false ∧ implementedReg 0x17 = false
      ∧ implementedReg 0x1F = false ∧ implementedReg 0xFF = false := by decide
theorem witness_OverflowService :
    ({ start with ovfPend := true } : State).ovfPend = true ∧ start.ovfPend = false := by decide
theorem witness_CrankEdge : ({ start with suppress := true } : State).suppress = true ∧ start.suppress = false := by decide
theorem witness_OneCrankBetweenIgnitions :
    let s : State := { start with suppress := true, crkPend := true }
    s.suppress = true ∧ (∀ i ∈ [Instr.clrp, .crk], i ≠ .ign ∧ i ≠ .rst)
      ∧ ∃ t, runOps [.clrp, .crk] s = .next t := ⟨rfl, by decide, _, rfl⟩
theorem witness_SuppressComesFromAcceptedCrank :
    ∃ t, runOps [.ign, .crk, .clrp] (State.resetWith fixture) = .next t ∧ t.suppress = true := ⟨_, rfl, by decide⟩
/-- A state one wrap into an epoch whose request was stale at its start. -/
theorem witness_RaceInvariantKept :
    let s : State := { start with cnt := 0xFFFF, ovfPend := true }
    ∃ t, EpochInv s ⟨65535, true, 0⟩ ∧ exec .ctk s = .next t :=
  ⟨_, by unfold EpochInv; decide, rfl⟩
theorem witness_CaptureStoresRaceFormula :
    let s : State := { start with cnt := 5, ext := 1 }
    EpochInv s ⟨5, true, 0⟩ ∧ s.suppress = false := ⟨by unfold EpochInv; decide, rfl⟩
theorem witness_PromptServiceMakesCapturesExact_ign :
    ∃ t, runOps ([.ctk, .ovs] ++ [.ign]) (State.resetWith fixture) = .next t
      ∧ promptOVS ([.ctk, .ovs] ++ [.ign]) (State.resetWith fixture) = true := ⟨_, rfl, by decide⟩
theorem witness_PromptServiceMakesCapturesExact_crk :
    ∃ u t, runOps [.ctk, .ovs] (State.resetWith fixture) = .next u ∧ u.suppress = false
      ∧ runOps ([.ctk, .ovs] ++ [.crk]) (State.resetWith fixture) = .next t
      ∧ promptOVS ([.ctk, .ovs] ++ [.crk]) (State.resetWith fixture) = true := ⟨_, _, rfl, rfl, rfl, by decide⟩
/-- A wrap with nothing pending: the step itself raises the request. -/
theorem witness_PromptStepKeepsCapturesExact :
    let s : State := { start with cnt := 0xFFFF, inputs := [.pin .countTick] }
    ∃ t, ExactEpoch s ⟨65535, false, 0⟩ ∧ promptStep s = true ∧ step s = .next t ∧ t.ovfPend = true :=
  ⟨_, ⟨by unfold EpochInv; decide, rfl, rfl⟩, by decide, rfl, by decide⟩
theorem witness_PinEventsRepeated : ({ start with ext := 1 } : State).cnt ≠ 0 ∨ ({ start with ext := 1 } : State).ext ≠ 0 := by
  decide
theorem witness_ConvChangesOnlyResults :
    let s := captured true 0 true 0
    let u := captured true 1 true 0
    (s.ignPend = true ∧ s.crkPend = true ∧ s.ignTs = 0)
      ∧ ¬ (u.ignPend = true ∧ u.crkPend = true ∧ u.ignTs = 0) := by decide
theorem witness_ConvWithoutIgnition : (captured false 10000 true 9000).ignPend = false := by decide
theorem witness_ConvWithoutCrank :
    let s := captured true 10000 false 9000
    s.ignPend = true ∧ s.crkPend = false := by decide
/-- At the boundary: the interval is MINCOUNT. -/
theorem witness_ConvPlausibleRpm :
    let s := captured true 5532 false 0
    s.ignPend = true ∧ s.params.minCount.toNat ≤ s.ignTs.toNat := by decide
/-- At the boundary: the interval is MINCOUNT - 1. -/
theorem witness_ConvImplausibleRpm :
    let s := captured true 5531 true 0
    s.ignPend = true ∧ s.ignTs.toNat < s.params.minCount.toNat := by decide
theorem witness_ConvAdvanceDigits :
    let s := captured true 1 true 0xFFFFFF
    s.ignPend = true ∧ s.crkPend = true ∧ s.ignTs ≠ 0 := by decide
/-- At the boundary: q = 27 (95_test_vectors.md, 1555 of 10000). -/
theorem witness_NegativeAdvanceShows268 :
    let s := captured true 10000 true 1555
    s.ignPend = true ∧ s.crkPend = true ∧ s.ignTs ≠ 0 ∧ 180 * s.crkTs.toNat / s.ignTs.toNat < 28
      ∧ 180 * s.crkTs.toNat / s.ignTs.toNat = 27 := by decide
theorem witness_ConvZeroIntervalDraws :
    let s := captured true 0 true 0
    s.ignPend = true ∧ s.crkPend = true ∧ s.ignTs = 0 := by decide
/-- At the boundary: A = 152 at interval 180. -/
theorem witness_AdvanceRoundTrip_upper :
    let s := captured true 180 true 180
    152 ≤ 152 ∧ s.ignPend = true ∧ s.crkPend = true ∧ 180 ≤ s.ignTs.toNat
      ∧ s.crkTs.toNat = ((152 + 28) * s.ignTs.toNat + 179) / 180 := by decide
/-- At the other: A = 0 at interval 10000 (crank timestamp 1556, 95_test_vectors.md section 4). -/
theorem witness_AdvanceRoundTrip_lower :
    let s := captured true 10000 true 1556
    s.ignPend = true ∧ s.crkPend = true ∧ 180 ≤ s.ignTs.toNat
      ∧ s.crkTs.toNat = ((0 + 28) * s.ignTs.toNat + 179) / 180 := by decide
/-- The hypotheses of the seven laws at their boundaries: its = MINCOUNT, MINCOUNT - 1, 1; q = 28 and 27; its = 180, 179. -/
theorem witness_ConverterObeysItsLaws :
    fixture.minCount.toNat ≤ (5532 : Timestamp).toNat ∧ (5531 : Timestamp).toNat < fixture.minCount.toNat
      ∧ 0 < (1 : Timestamp).toNat ∧ 28 ≤ 180 * (1556 : Timestamp).toNat / (10000 : Timestamp).toNat
      ∧ 180 * (1555 : Timestamp).toNat / (10000 : Timestamp).toNat < 28
      ∧ 180 ≤ (180 : Timestamp).toNat ∧ (179 : Timestamp).toNat < 180 ∧ crankTimestampFor 0 10000 = 1556 := by decide
theorem witness_ConvKeepsNoState :
    let s := captured true 10000 true 9000
    let u := { s with res := s.res.set 0 (.digit 3), cnt := 7 }
    s.ignPend = u.ignPend ∧ s.ignTs = u.ignTs ∧ s.crkPend = u.crkPend ∧ s.crkTs = u.crkTs ∧ s.params = u.params
      ∧ s.draws = u.draws ∧ s ≠ u := by decide
theorem witness_SelectLinePolarity :
    fixture.selActiveLow = true ∧ ({ fixture with selActiveLow := false } : Params).selActiveLow = false := by decide
theorem witness_TickerCountsRefreshTicks :
    (∀ i ∈ [Instr.rtk, .ctk, .rtk], i ≠ .tkrst ∧ i ≠ .rst) ∧ ∃ t, runOps [.rtk, .ctk, .rtk] start = .next t :=
  ⟨by decide, _, rfl⟩
theorem witness_WrittenPatternShownWithinSevenTicks : (6 : BitVec 4).toNat < 7 ∧ (0 : BitVec 4).toNat < 7 := by decide
theorem displayInv_start : DisplayInv start := ⟨by decide, rfl, rfl, fun _ => rfl, fun h => absurd rfl h, rfl⟩
theorem displayInv_after_tick : DisplayInv (after .rtk start) :=
  ⟨by decide, by decide, by decide, fun h => absurd h (by decide), fun _ => by decide, by decide⟩
theorem witness_ExactlyOnePositionSelected :
    (DisplayInv start ∧ start.trace = []) ∧ DisplayInv (after .rtk start) ∧ (after .rtk start).trace ≠ [] :=
  ⟨⟨displayInv_start, rfl⟩, displayInv_after_tick, by decide⟩
theorem witness_DisplayInvariantKept :
    ∃ t, DisplayInv (after .rtk start) ∧ step (after .rtk start) = .next t := ⟨_, displayInv_after_tick, rfl⟩
theorem witness_DisplayInvariantKept_moves :
    let s : State := { start with inputs := [.pin .refreshTick] }
    ∃ t, DisplayInv s ∧ step s = .next t ∧ t.pos = 6 :=
  ⟨_, ⟨by decide, rfl, rfl, fun _ => rfl, fun h => absurd rfl h, rfl⟩, rfl, by decide⟩
theorem witness_ReadReturnsRegister :
    implementedReg 0x04 = false
      ∧ ({ start with inputs := [.host 0x0004] } : State).inputs = .host (encode (.rd 0x04)) :: [] := by decide
theorem witness_WriteDigit : (6 : BitVec 4).toNat < 7 ∧ 7 ≤ (7 : BitVec 4).toNat ∧ (0 : Fin 7).val ≠ (6 : BitVec 4).toNat := by
  decide
theorem witness_CommitDigit : (0 : BitVec 4).toNat < 7 ∧ 7 ≤ (15 : BitVec 4).toNat ∧ (6 : Fin 7).val ≠ (0 : BitVec 4).toNat := by
  decide
theorem witness_ClearedEventsAreLost :
    let s : State := { captured true 10000 true 9000 with suppress := true }
    (∀ i ∈ [Instr.crk, .ctk], i ≠ .ign ∧ i ≠ .rst) ∧ s.suppress = true
      ∧ ∃ t, runOps (.clrp :: [.crk, .ctk] ++ [.conv]) s = .next t := ⟨by decide, rfl, _, rfl⟩
theorem witness_HostOperationsIdempotent :
    let s := captured true 10000 true 9000
    Instr.conv.isHost = true ∧ ¬ (s.ignPend = true ∧ s.crkPend = true ∧ s.ignTs = 0)
      ∧ ∃ t, exec .conv s = .next t := ⟨rfl, by decide, _, rfl⟩
theorem witness_OnlyOwnersWrite : ∃ t, exec .ctk start = .next t ∧ t.cnt ≠ start.cnt := ⟨_, rfl, by decide⟩
theorem witness_OnlyReadersDepend :
    Instr.rtk ∉ [Instr.ctk, .ign, .crk, .rst] ∧ Instr.rd 0x01 ∉ [Instr.ign, .clrp, .conv, .rst, .rd 0x00] := by decide
theorem witness_HostAccessRights :
    let s : State := { start with inputs := [.host 0x4000, .pin .countTick] }
    s.inputs = .host 0x4000 :: [.pin .countTick] ∧ ∃ t, step s = .next t := ⟨rfl, _, rfl⟩

end Sys2Proof.Tests
end

section
/-! SUPPORT. The family of the state: what reset gives, the views of the state, who writes and who reads each item, and the
two invariants of R32 that every operation keeps. -/
namespace Sys2Proof.Machine

/-! ### Operations with a branch, as one update of the state -/

/-- OVS as one update: EXT takes the request in, and the request is down afterwards (R81). -/
theorem serveOverflow_eq (s : State) :
    serveOverflow s = { s with ext := if s.ovfPend then s.ext + 1 else s.ext, ovfPend := false } := by
  cases s
  simp only [serveOverflow]
  split <;> simp_all

/-- CRK as one update: the timestamp and its flag move only where SUPPRESS was clear, and it is set afterwards (R83). -/
theorem captureCrank_eq (s : State) :
    captureCrank s = { s with
      crkTs := if s.suppress then s.crkTs else snapshot s
      crkPend := if s.suppress then s.crkPend else true
      suppress := true } := by
  cases s
  simp only [captureCrank]
  split <;> simp_all

/-! ### The register numbers -/

/-- The number of an implemented host register (20_memory.md R41). -/
def regNumber : HostReg → BitVec 8
  | .status => 0x00
  | .ignTs => 0x01
  | .crkTs => 0x02
  | .ms => 0x03
  | .dig k => BitVec.ofNat 8 (0x10 + k.val)
  | .res k => BitVec.ofNat 8 (0x20 + k.val)

/-- The register map gives a register at its own number only. -/
theorem eq_regNumber_of_hostReg? {rr : BitVec 8} {r : HostReg} (h : hostReg? rr = some r) : rr = regNumber r := by
  have map_own : ∀ n : BitVec 8, (hostReg? n).all (fun q => n == regNumber q) = true := by decide
  simpa [h] using map_own rr

/-! ### Reset -/

/-- Settles O10: the reset state is written out item by item, and the two arrays hold the dash at every index. -/
theorem resetValues : Obligations.ResetValues := by
  refine ⟨fun p k => ?_, Config.params, rfl⟩
  have hres : (State.resetWith p).res.get k = .dash := Vector.getElem_replicate k.isLt
  have hdig : (State.resetWith p).dig.get k = segPattern p .dash := Vector.getElem_replicate k.isLt
  exact ⟨rfl, rfl, rfl, rfl, rfl, rfl, rfl, rfl, hres, hdig, rfl, rfl, rfl, rfl, rfl, rfl, rfl⟩

/-- RST leaves the reset state of the same parameters, the model's own fields aside (R180). -/
theorem resetBlock_eq (s : State) :
    resetBlock s =
      { State.resetWith s.params with inputs := s.inputs, draws := s.draws, readData := s.readData } := rfl

/-! ### The views: the select lines and STATUS -/

/-- Every select line is a bit of 0x7F. -/
theorem allLines_getLsbD (k : Fin 7) : (0x7F : SelectMask).getLsbD k.val = true := by revert k; decide

/-- A line of ALL_OFF holds the inactive level (R26). -/
theorem allOff_getLsbD (p : Params) (k : Fin 7) : (allOff p).getLsbD k.val = p.selActiveLow := by
  cases h : p.selActiveLow with
  | true => simp only [allOff, h, if_true, allLines_getLsbD]
  | false => simp [allOff, h]

/-- A line of drive(m) is at the active level exactly for a bit of `m` (R26). -/
theorem driveSelect_getLsbD (p : Params) (m : SelectMask) (k : Fin 7) :
    (driveSelect p m).getLsbD k.val = (m.getLsbD k.val != p.selActiveLow) := by
  cases h : p.selActiveLow with
  | true =>
    simp only [driveSelect, h, if_true, BitVec.getLsbD_and, BitVec.getLsbD_not, allLines_getLsbD]
    simp
  | false => simp [driveSelect, h]

/-- Settles O36: the two masks line by line, against the active level. -/
theorem selectLinePolarity : Obligations.SelectLinePolarity := by
  intro p m k
  refine ⟨?_, ?_, fun low => ?_, fun high => ?_⟩
  · rw [lineActive, allOff_getLsbD, bne_self_eq_false]
  · rw [lineActive, driveSelect_getLsbD, Bool.bne_assoc, bne_self_eq_false, Bool.bne_false]
  · simp [allOff, low]
  · simp [allOff, high]

/-- Settles O45: the view appends the three flags, IGN_PEND lowest, and widens them with zeros. -/
theorem statusBits : Obligations.StatusBits := by
  intro s
  refine ⟨?_, ?_, ?_, fun j hj => ?_⟩
  · simp only [statusView, BitVec.getLsbD_setWidth, BitVec.getLsbD_append]; simp
  · simp only [statusView, BitVec.getLsbD_setWidth, BitVec.getLsbD_append]; simp
  · simp only [statusView, BitVec.getLsbD_setWidth, BitVec.getLsbD_append]; simp
  · rw [statusView, BitVec.getLsbD_setWidth, BitVec.getLsbD_of_ge _ _ hj, Bool.and_false]

/-! ### Who writes and who reads an item -/

/-- Settles O52, operation by operation: each is an update of the items R29 gives it. -/
theorem onlyOwnersWrite : Obligations.OnlyOwnersWrite := by
  intro i s t h
  obtain ⟨rr, r, rfl, -, rfl⟩ | ⟨a, dd, k, rfl, -, rfl⟩ | ⟨a, k, rfl, -, rfl⟩ | ⟨rfl, rfl⟩ | ⟨rfl, rfl⟩ | ⟨rfl, rfl⟩
    | ⟨rfl, rfl⟩ | ⟨rfl, rfl⟩ | ⟨rfl, rfl⟩ | ⟨rfl, rfl⟩ | ⟨rfl, rfl⟩ | ⟨rfl, rfl⟩ := exec_next_cases h
  -- RD, WRDIG and CMT: the laws of `returnData` and `writeDig` say what each field becomes
  · simp
  · simp
  · simp
  -- the others, each by its own update
  · simp [runConverter]
  · simp [clearPending]
  · simp [resetTicker]
  · simp [countTick]
  · simp [serveOverflow_eq]
  · simp [captureIgnition]
  · simp [captureCrank_eq]
  · simp [refreshTick_eq]
  · simp [resetBlock]

/-- Settles O53, operation by operation: the update each makes names only the items R29 has it read. What RD reads turns
on its number, which `eq_regNumber_of_hostReg?` recovers from the register. -/
theorem onlyReadersDepend : Obligations.OnlyReadersDepend := by
  intro i s
  cases i with
  | rd rr =>
    simp only [exec, execRd]
    cases hr : hostReg? rr with
    | none => simp [mapNext]
    | some r =>
      obtain rfl := eq_regNumber_of_hostReg? hr
      cases r with
      | status => simp [mapNext, returnData, readHostReg, statusView, regNumber]
      | ignTs => simp [mapNext, returnData, readHostReg, regNumber]
      | crkTs => simp [mapNext, returnData, readHostReg, regNumber]
      | ms => simp [mapNext, returnData, readHostReg, regNumber]
      | dig k => simp [mapNext, returnData, readHostReg]
      | res k => simp [mapNext, returnData, readHostReg]
  | wrdig a dd =>
    simp only [exec, execWrdig]
    cases position? a <;> simp [mapNext, writeDig]
  | cmt a =>
    simp only [exec, execCmt]
    cases position? a <;> simp [mapNext, writeDig]
  | conv => simp [mapNext, runConverter]
  | clrp => simp [mapNext, clearPending]
  | tkrst => simp [mapNext, resetTicker]
  | ctk => simp [mapNext, countTick]
  | ovs => simp [mapNext, serveOverflow_eq]
  | ign => simp [mapNext, captureIgnition, snapshot]
  | crk => simp [mapNext, captureCrank_eq, snapshot]
  | rtk => simp [mapNext, refreshTick_eq]
  | rst => simp [mapNext, resetBlock]

/-! ### SUPPRESS -/

/-- An operation that leaves SUPPRESS set is no IGN and no RST, and found it set or is an accepted CRK (R32). -/
theorem suppress_cases {i : Instr} {s t : State} (h : exec i s = .next t) (ht : t.suppress = true) :
    (i ≠ .ign ∧ i ≠ .rst) ∧ (s.suppress = true ∨ i = .crk ∧ s.suppress = false) := by
  have hign : i ≠ .ign := by rintro rfl; cases h; cases ht
  have hrst : i ≠ .rst := by rintro rfl; cases h; cases ht
  refine ⟨⟨hign, hrst⟩, ?_⟩
  cases hs : s.suppress with
  | true => exact .inl rfl
  | false =>
    obtain ⟨-, -, -, -, -, -, -, writers, -⟩ := onlyOwnersWrite i s t h
    have hi : i ∈ [Instr.crk, .ign, .rst] := writers (by simp [hs, ht])
    exact .inr ⟨by simpa [hign, hrst] using hi, rfl⟩

/-- Settles O19, by induction on the sequence from its end: the last operation found SUPPRESS set, and the CRK stands
before it, or it is that CRK. -/
theorem suppressComesFromAcceptedCrank : Obligations.SuppressComesFromAcceptedCrank := by
  intro p ops
  induction ops using List.reverseRecOn with
  | nil =>
    intro t h ht
    cases h
    cases ht
  | append_singleton ops i ih =>
    intro t h ht
    obtain ⟨u, hops, hi⟩ := runOps_append_next.mp h
    obtain ⟨v, hiv, hv⟩ := runOps_cons_next.mp hi
    cases hv
    obtain ⟨hne, hu | ⟨rfl, hu⟩⟩ := suppress_cases hiv ht
    · obtain ⟨before, after, w, rfl, hw, hwclear, hafter⟩ := ih u hops hu
      refine ⟨before, after ++ [i], w, by simp, hw, hwclear, fun j hj => ?_⟩
      obtain hj | hj := List.mem_append.mp hj
      · exact hafter j hj
      · rwa [List.mem_singleton.mp hj]
    · exact ⟨ops, [], u, rfl, hops, hu, by simp⟩

/-! ### The display -/

theorem displayInv_resetWith (p : Params) : DisplayInv (State.resetWith p) where
  mask_is_pos := by simp [State.resetWith]
  sel_is_last := rfl
  seg_is_last := rfl
  sel_before_tick _ := rfl
  sel_after_tick h := absurd rfl h
  three_a_tick := rfl

/-- Settles O42: the reset state has the invariant for any parameters, the machine's among them. -/
theorem displayInvariantAfterReset : Obligations.DisplayInvariantAfterReset :=
  ⟨displayInv_resetWith Config.params, displayInv_resetWith⟩

/-- The invariant speaks of six fields: a state that agrees in these has it too. -/
theorem DisplayInv.of_same_display {s t : State} (hs : DisplayInv s) (hpos : t.pos = s.pos) (hmask : t.mask = s.mask)
    (hsel : t.selOut = s.selOut) (hseg : t.segOut = s.segOut) (htrace : t.trace = s.trace)
    (hparams : t.params = s.params) : DisplayInv t where
  mask_is_pos := by rw [hmask, hpos]; exact hs.mask_is_pos
  sel_is_last := by rw [hsel, htrace, hparams]; exact hs.sel_is_last
  seg_is_last := by rw [hseg, htrace, hparams]; exact hs.seg_is_last
  sel_before_tick := by rw [hsel, htrace, hparams]; exact hs.sel_before_tick
  sel_after_tick := by rw [hsel, htrace, hparams, hmask]; exact hs.sel_after_tick
  three_a_tick := by rw [htrace]; exact hs.three_a_tick

/-- RTK keeps the invariant: POS and MASK move together, and its three writes end the trace with the latches' values. -/
theorem displayInv_refreshTick {s : State} (hs : DisplayInv s) : DisplayInv (refreshTick s) := by
  rw [refreshTick_eq]
  constructor
  case mask_is_pos =>
    show ror7 s.mask = (1 : SelectMask) <<< (nextPos s.pos).val
    rw [hs.mask_is_pos, ror7_shifted_one]
  case sel_is_last => simp [lastSel_append, lastSel]
  case seg_is_last => simp [lastSeg_append, lastSeg]
  case sel_before_tick => simp
  case sel_after_tick => simp
  case three_a_tick => simpa using hs.three_a_tick

/-- RST gives the invariant back from any state. -/
theorem displayInv_resetBlock (s : State) : DisplayInv (resetBlock s) := by
  rw [resetBlock_eq]
  exact (displayInv_resetWith s.params).of_same_display rfl rfl rfl rfl rfl rfl

/-- Every operation keeps the invariant: by R29 none but RTK and RST touches the display. -/
theorem displayInv_exec {i : Instr} {s t : State} (hs : DisplayInv s) (h : exec i s = .next t) : DisplayInv t := by
  by_cases hrtk : i = .rtk
  · subst hrtk
    cases h
    exact displayInv_refreshTick hs
  by_cases hrst : i = .rst
  · subst hrst
    cases h
    exact displayInv_resetBlock s
  have hi : i ∉ [Instr.rtk, .rst] := by simp [hrtk, hrst]
  obtain ⟨-, -, -, -, -, -, -, -, -, -, hpos, -, hout, -, -, hparams, -⟩ := onlyOwnersWrite i s t h
  obtain ⟨hpos, hmask⟩ := not_or.mp (mt hpos hi)
  obtain ⟨hsel, hout⟩ := not_or.mp (mt hout hi)
  obtain ⟨hseg, htrace⟩ := not_or.mp hout
  exact hs.of_same_display (not_not.mp hpos) (not_not.mp hmask) (not_not.mp hsel) (not_not.mp hseg)
    (not_not.mp htrace) hparams

/-- Settles O43: an idle step changes nothing, and any other runs one operation, which keeps the invariant. -/
theorem displayInvariantKept : Obligations.DisplayInvariantKept := by
  intro s t hs h
  obtain ⟨-, rfl⟩ | ⟨i, -, hi⟩ := step_next_cases h
  · exact hs
  · exact displayInv_exec (hs.of_same_display (t := takeInput s) rfl rfl rfl rfl rfl rfl) hi

end Sys2Proof.Machine
end

section
/-! SUPPORT. The family of the order of operations (20_memory.md): what reaches the step is the operation meant, the
steps over a sequence of operations are that sequence, and what a repeated operation and a repeated tick do. -/
namespace Sys2Proof.Machine

/-! ### An operation reaches the step as itself -/

/-- The word of a well-formed operation decodes to it (R65): the operation code picks the format, and the format's check
of the zero fields and of the index passes. -/
theorem decode_encode {i : Instr} (h : i.wellFormed = true) : decode (encode i) = .ok i := by
  cases i with
  | rd rr => simp [decode, encode, decodeR]
  | wrdig a dd =>
    have ha : indexInRange a = true := h
    simp [decode, encode, decodeW, ha]
  | cmt a =>
    have ha : indexInRange a = true := h
    simp [decode, encode, decodeI, ha]
  | _ => rfl

/-- A well-formed operation, at its pin or as its word, is fetched as itself. -/
theorem fetchStimulus_stimulusOf {i : Instr} (h : i.wellFormed = true) : fetchStimulus (stimulusOf i) = .op i := by
  cases he : i.pinEvent? with
  | some e => simp [stimulusOf, he, fetchStimulus, toInstr_of_pinEvent? he]
  | none => simp [stimulusOf, he, fetchStimulus, fetchHostWord, decode_encode h, Instr.isHost]

/-- A step with a well-formed operation next runs that operation on the state with the rest of the inputs. -/
theorem step_stimulusOf {i : Instr} (h : i.wellFormed = true) (rest : List Stimulus) (s : State) :
    step { s with inputs := stimulusOf i :: rest } = exec i { s with inputs := rest } :=
  step_of_fetch_op (fetchStimulus_stimulusOf h)

/-! ### The steps of the machine are the operations in order -/

/-- Settles O8, by induction on the sequence: a step runs the first operation, which leaves the inputs alone, and the
other steps run the others. -/
theorem stepsAreTheOrderedSequence : Obligations.StepsAreTheOrderedSequence := by
  intro ops rest s hops
  induction ops generalizing s with
  | nil => rfl
  | cons i ops ih =>
    obtain ⟨hi, hops⟩ := List.forall_mem_cons.mp hops
    rw [List.length_cons, core_run_succ, List.map_cons, List.cons_append, step_stimulusOf hi, runOps_cons, exec_inputs,
      exec_inputs i s rest]
    cases exec i s with
    | next t => exact ih t hops
    | fault f => rfl
    | refused r => rfl

/-- Settles O56, by induction on the number of steps: step `n` runs operation `n` on what the steps before it gave. -/
theorem stepsFollowInfiniteBehaviour : Obligations.StepsFollowInfiniteBehaviour := by
  intro op n s hop
  induction n with
  | zero => rfl
  | succ n ih =>
    rw [stepsUnder, ih, Behaviour.stateAfter, Behaviour.stateAfter, firstOps_infinite_succ, runOps_concat]
    cases runOps ((Behaviour.infinite op).firstOps n) s with
    | next t => exact step_stimulusOf (hop n) t.inputs t
    | fault f => rfl
    | refused r => rfl

/-! ### Behaviours -/

/-- A well-formed operation, RD of an implemented register if it is an RD, completes from every state (R160). -/
theorem exec_completes {i : Instr} (hwf : i.wellFormed = true) (hrd : ∀ rr, i = .rd rr → implementedReg rr = true)
    (s : State) : ∃ t, exec i s = .next t := by
  cases i with
  | rd rr =>
    obtain ⟨r, hr⟩ := Option.isSome_iff_exists.mp ((hostReg?_isSome rr).trans (hrd rr rfl))
    exact ⟨_, by rw [exec, execRd, hr]⟩
  | wrdig a dd => exact ⟨_, exec_wrdig_of_le (of_decide_eq_true hwf) dd s⟩
  | cmt a => exact ⟨_, exec_cmt_of_le (of_decide_eq_true hwf) s⟩
  | _ => exact ⟨_, rfl⟩

/-- A sequence of operations each of which completes from every state completes. -/
theorem runOps_completes {ops : List Instr} (h : ∀ i ∈ ops, ∀ s, ∃ t, exec i s = .next t) (s : State) :
    ∃ t, runOps ops s = .next t := by
  induction ops generalizing s with
  | nil => exact ⟨s, rfl⟩
  | cons i ops ih =>
    obtain ⟨hi, hops⟩ := List.forall_mem_cons.mp h
    obtain ⟨u, hu⟩ := hi s
    obtain ⟨t, ht⟩ := ih hops u
    exact ⟨t, runOps_cons_next.mpr ⟨u, hu, ht⟩⟩

/-- The first `n` operations are fixed by the places below `n`. -/
theorem firstOps_infinite_congr {op op' : Nat → Instr} {n : Nat} (h : ∀ k, k < n → op k = op' k) :
    (Behaviour.infinite op).firstOps n = (Behaviour.infinite op').firstOps n :=
  List.map_congr_left fun k hk => h k (List.mem_range.mp hk)

/-- Settles O55: one operation more acts on the state before it; the first operations alone decide that state; taking at
least its length takes all of a finite behaviour; and each operation of an infinite one completes. -/
theorem behaviourIsOneTotalOrder : Obligations.BehaviourIsOneTotalOrder := by
  refine ⟨fun op n s t h => ?_, fun op op' n s h => ?_, fun ops n s h => ?_, fun op s h n => ?_⟩
  · rw [Behaviour.stateAfter] at h
    rw [Behaviour.stateAfter, firstOps_infinite_succ, runOps_concat, h]
  · rw [Behaviour.stateAfter, firstOps_infinite_congr h, ← Behaviour.stateAfter]
  · rw [Behaviour.result, Behaviour.stateAfter, firstOps_finite, List.take_of_length_le h]
  · refine runOps_completes (fun i hi => ?_) s
    obtain ⟨k, -, rfl⟩ := mem_firstOps_infinite.mp hi
    obtain ⟨hwf, hrd⟩ := h k
    exact exec_completes hwf hrd

/-! ### Host operations repeated -/

/-- RD reads no item that RD changes. -/
theorem readHostReg_returnData (v : Word32) (s : State) (r : HostReg) :
    readHostReg (returnData v s) r = readHostReg s r := by cases r <;> rfl

/-- The last value returned to the host stands. -/
theorem returnData_returnData (v w : Word32) (s : State) : returnData w (returnData v s) = returnData w s := rfl

/-- The last write of a position of DIG stands. -/
theorem writeDig_writeDig (k : Fin 7) (b c : Byte) (s : State) : writeDig k c (writeDig k b s) = writeDig k c s := by
  simp [writeDig]

/-- CONV reads neither RES nor anything else CONV changes, but for the draws of R106. -/
theorem runConverter_runConverter {s : State} (h : ¬ (s.ignPend = true ∧ s.crkPend = true ∧ s.ignTs = 0)) :
    runConverter (runConverter s) = runConverter s := by
  have frame := runConverter_frame h
  have reads_no_res : ∀ v, runConverter { s with res := v } = runConverter s := fun _ => rfl
  calc runConverter (runConverter s)
      = runConverter { s with res := (runConverter s).res } := congrArg runConverter frame
    _ = runConverter s := reads_no_res _

/-- Settles O51, operation by operation: what each writes it does not read, so the second write is the first again. -/
theorem hostOperationsIdempotent : Obligations.HostOperationsIdempotent := by
  intro i s t hhost hconv h
  obtain ⟨rr, r, rfl, hr, rfl⟩ | ⟨a, dd, k, rfl, hk, rfl⟩ | ⟨a, k, rfl, hk, rfl⟩ | ⟨rfl, rfl⟩ | ⟨rfl, rfl⟩ | ⟨rfl, rfl⟩
    | ⟨rfl, -⟩ | ⟨rfl, -⟩ | ⟨rfl, -⟩ | ⟨rfl, -⟩ | ⟨rfl, -⟩ | ⟨rfl, -⟩ := exec_next_cases h
  · simp [exec, execRd, hr, readHostReg_returnData, returnData_returnData]
  · simp [exec, execWrdig, hk, writeDig_writeDig]
  · simp [exec, execCmt, hk, writeDig_writeDig]
  · rw [exec_conv, runConverter_runConverter (hconv rfl)]
  · rfl -- CLRP
  · rfl -- TKRST
  -- the pin events are no host operations
  all_goals cases hhost

/-! ### Refresh ticks repeated -/

/-- `n` RTK are `n` ticks. -/
theorem runOps_repeatOp_rtk (n : Nat) (s : State) : runOps (repeatOp n .rtk) s = .next (refreshTick^[n] s) := by
  induction n generalizing s with
  | zero => rfl
  | succ n ih => exact ih (refreshTick s)

/-- Ticks leave DIG. -/
theorem refreshTick_iterate_dig (n : Nat) (s : State) : (refreshTick^[n] s).dig = s.dig := by
  induction n generalizing s with
  | zero => rfl
  | succ n ih => exact ih (refreshTick s)

/-- `n` ticks take the position down by `n`, modulo 7 (R120). -/
theorem refreshTick_iterate_pos (n : Nat) (s : State) : (refreshTick^[n] s).pos.val = (s.pos.val + 6 * n) % 7 := by
  induction n with
  | zero => simp [Nat.mod_eq_of_lt s.pos.isLt]
  | succ n ih =>
    have next : (refreshTick^[n + 1] s).pos = nextPos (refreshTick^[n] s).pos := by
      rw [Function.iterate_succ_apply', refreshTick_eq]
    rw [next, nextPos_val, ih]
    omega

/-- After a tick the segment lines hold the pattern of the position selected (R120). -/
theorem refreshTick_iterate_succ_segOut (n : Nat) (s : State) :
    (refreshTick^[n + 1] s).segOut = s.dig.get (refreshTick^[n + 1] s).pos := by
  rw [← refreshTick_iterate_dig n s, Function.iterate_succ_apply', refreshTick_eq]

/-- Settles O40: the position comes down to `i` after 1 to 7 ticks, none of which touches the byte. -/
theorem writtenPatternShownWithinSevenTicks : Obligations.WrittenPatternShownWithinSevenTicks := by
  intro s i dd h
  have hw := exec_wrdig_of_le (Nat.le_of_lt_succ h) dd s
  refine ⟨⟨_, hw, rfl⟩, ?_⟩
  generalize hu : writeDig ⟨i.toNat, h⟩ dd s = u at hw
  have hdig : u.dig.get ⟨i.toNat, h⟩ = dd := by simp [← hu, Vector.get_eq_getElem]
  obtain ⟨n, hn, hpos⟩ : ∃ n < 7, (refreshTick^[n + 1] u).pos = ⟨i.toNat, h⟩ := by
    refine ⟨(u.pos.val + 6 - i.toNat) % 7, Nat.mod_lt _ (by decide), Fin.ext ?_⟩
    have := u.pos.isLt
    rw [refreshTick_iterate_pos]
    show _ = i.toNat
    omega
  refine ⟨n + 1, refreshTick^[n + 1] u, by omega, by omega, ?_, hpos, ?_⟩
  · exact runOps_cons_next.mpr ⟨u, hw, runOps_repeatOp_rtk (n + 1) u⟩
  · rw [refreshTick_iterate_succ_segOut, hpos, hdig]

end Sys2Proof.Machine
end

section
/-! SUPPORT. The family of the encoding (30_encoding.md): a word decodes to an operation exactly when it is that
operation's word, which words are reserved, what the step does with a word, and the pseudo-operation ITER. -/
namespace Sys2Proof.Machine

/-! ### Words and their operations -/

/-- Settles O1: the operation code picks the format, whose checks a well-formed operation's word passes. -/
theorem decodeOfEncode : Obligations.DecodeOfEncode := fun _ => decode_encode

/-- A word is assembled from its operation code, given as a number, and its other two fields. -/
theorem eq_assemble_of_opField {w : OpWord} {n : Nat} (hop : (opField w).toNat = n) :
    w = assemble (BitVec.ofNat 4 n) (aField w) (dField w) := by
  rw [← hop, BitVec.ofNat_toNat, BitVec.setWidth_eq, assemble_fields]

/-- Format Z accepts one operation and one word of an operation code. -/
theorem eq_of_decodeZ {w : OpWord} {n : Nat} {i j : Instr} (hop : (opField w).toNat = n) (h : decodeZ j w = .ok i) :
    i = j ∧ w = assemble (BitVec.ofNat 4 n) 0 0 := by
  rw [decodeZ] at h
  split at h
  next hz =>
    obtain ⟨ha, hd⟩ := hz
    cases h
    exact ⟨rfl, by rw [eq_assemble_of_opField hop, ha, hd]⟩
  next => cases h

/-- What a word decodes to is well formed and has that word (R65): each format's check leaves no field but the
operation's operands. -/
theorem wellFormed_encode_of_decode {w : OpWord} {i : Instr} (h : decode w = .ok i) :
    i.wellFormed = true ∧ encode i = w := by
  rw [decode] at h
  split at h
  next hop =>
    rw [decodeR] at h
    split at h
    next ha => cases h; exact ⟨rfl, by rw [encode, eq_assemble_of_opField hop, ha]; simp⟩
    next => cases h
  next hop =>
    rw [decodeW] at h
    split at h
    next hi => cases h; exact ⟨hi, (eq_assemble_of_opField hop).symm⟩
    next => cases h
  next hop =>
    rw [decodeI] at h
    split at h
    next hi =>
      split at h
      next hd => cases h; exact ⟨hi, by rw [encode, eq_assemble_of_opField hop, hd]; simp⟩
      next => cases h
    next => cases h
  case h_13 => cases h
  -- format Z
  all_goals
    obtain ⟨rfl, rfl⟩ := eq_of_decodeZ ‹_› h
    exact ⟨rfl, rfl⟩

/-- Settles O2. -/
theorem encodeOfDecode : Obligations.EncodeOfDecode := fun _ _ => wellFormed_encode_of_decode

/-- Settles O5: each word is the encoding of its operation. -/
theorem writtenOutWordsDecode : Obligations.WrittenOutWordsDecode :=
  ⟨decode_encode (i := .rd 0x16) rfl, decode_encode (i := .wrdig 3 0x5B) rfl, decode_encode (i := .cmt 6) rfl,
    decode_encode (i := .conv) rfl, decode_encode (i := .ign) rfl, decode_encode (i := .rtk) rfl,
    decode_encode (i := .rst) rfl⟩

/-! ### The opcode table -/

/-- Two words are equal when their three fields are. -/
theorem eq_iff_fields {v w : OpWord} :
    v = w ↔ opField v = opField w ∧ aField v = aField w ∧ dField v = dField w := by
  refine ⟨fun h => by simp [h], fun ⟨hop, ha, hd⟩ => ?_⟩
  rw [← assemble_fields v, hop, ha, hd, assemble_fields]

theorem opField_and (v w : OpWord) : opField (v &&& w) = opField v &&& opField w := BitVec.extractLsb'_and

theorem aField_and (v w : OpWord) : aField (v &&& w) = aField v &&& aField w := BitVec.extractLsb'_and

theorem dField_and (v w : OpWord) : dField (v &&& w) = dField v &&& dField w := BitVec.extractLsb'_and

theorem and_nibbleMask (x : BitVec 4) : x &&& 15#4 = x := BitVec.and_allOnes

theorem and_byteMask (x : Byte) : x &&& 255#8 = x := BitVec.and_allOnes

/-- The row of RD matches exactly the words of RD. -/
theorem rowMatches_rd_iff {w : OpWord} :
    rowMatches ⟨"RD", 0x0000, 0xFF00, false⟩ w = true ↔ ∃ rr, w = encode (.rd rr) := by
  have mask : (0xFF00 : OpWord) = assemble 0xF 0xF 0x00 := rfl
  have bits : (0x0000 : OpWord) = assemble 0x0 0x0 0x00 := rfl
  simp [rowMatches, mask, bits, eq_iff_fields, opField_and, aField_and, dField_and, and_nibbleMask, encode]

/-- The row of WRDIG matches exactly the words of well-formed WRDIG. -/
theorem rowMatches_wrdig_iff {w : OpWord} :
    rowMatches ⟨"WRDIG", 0x1000, 0xF000, true⟩ w = true
      ↔ ∃ a dd, (Instr.wrdig a dd).wellFormed = true ∧ w = encode (.wrdig a dd) := by
  have mask : (0xF000 : OpWord) = assemble 0xF 0x0 0x00 := rfl
  have bits : (0x1000 : OpWord) = assemble 0x1 0x0 0x00 := rfl
  simp [rowMatches, mask, bits, eq_iff_fields, opField_and, aField_and, dField_and, and_nibbleMask, encode,
    Instr.wellFormed, and_comm]

/-- The row of CMT matches exactly the words of well-formed CMT. -/
theorem rowMatches_cmt_iff {w : OpWord} :
    rowMatches ⟨"CMT", 0x2000, 0xF0FF, true⟩ w = true
      ↔ ∃ a, (Instr.cmt a).wellFormed = true ∧ w = encode (.cmt a) := by
  have mask : (0xF0FF : OpWord) = assemble 0xF 0x0 0xFF := rfl
  have bits : (0x2000 : OpWord) = assemble 0x2 0x0 0x00 := rfl
  simp [rowMatches, mask, bits, eq_iff_fields, opField_and, aField_and, dField_and, and_nibbleMask, and_byteMask,
    encode, Instr.wellFormed, and_comm]

/-- A row with every bit fixed matches one word. -/
theorem rowMatches_full_iff {m : String} {b w : OpWord} : rowMatches ⟨m, b, 0xFFFF, false⟩ w = true ↔ w = b := by
  have and_mask : w &&& 0xFFFF = w := BitVec.and_allOnes
  rw [rowMatches, and_mask, Bool.and_eq_true, decide_eq_true_iff]
  exact and_iff_left rfl

/-- The word of a well-formed operation matches that operation's row. -/
theorem exists_row_of_wellFormed {i : Instr} (h : i.wellFormed = true) :
    ∃ row ∈ opcodeTable, rowMatches row (encode i) = true ∧ row.mnemonic = i.mnemonic := by
  cases i with
  | rd rr => exact ⟨⟨"RD", 0x0000, 0xFF00, false⟩, by decide, rowMatches_rd_iff.mpr ⟨rr, rfl⟩, rfl⟩
  | wrdig a dd => exact ⟨⟨"WRDIG", 0x1000, 0xF000, true⟩, by decide, rowMatches_wrdig_iff.mpr ⟨a, dd, h, rfl⟩, rfl⟩
  | cmt a => exact ⟨⟨"CMT", 0x2000, 0xF0FF, true⟩, by decide, rowMatches_cmt_iff.mpr ⟨a, h, rfl⟩, rfl⟩
  | _ => decide

/-- A word that a row of the table matches is the word of a well-formed operation of that row. -/
theorem exists_encode_of_rowMatches {row : OpcodeRow} {w : OpWord} (hrow : row ∈ opcodeTable)
    (h : rowMatches row w = true) :
    ∃ i : Instr, i.wellFormed = true ∧ encode i = w ∧ i.mnemonic = row.mnemonic := by
  simp only [opcodeTable, List.mem_cons, List.not_mem_nil, or_false] at hrow
  obtain rfl | rfl | rfl | rfl | rfl | rfl | rfl | rfl | rfl | rfl | rfl | rfl := hrow
  · obtain ⟨rr, rfl⟩ := rowMatches_rd_iff.mp h
    exact ⟨.rd rr, rfl, rfl, rfl⟩
  · obtain ⟨a, dd, hwf, rfl⟩ := rowMatches_wrdig_iff.mp h
    exact ⟨.wrdig a dd, hwf, rfl, rfl⟩
  · obtain ⟨a, hwf, rfl⟩ := rowMatches_cmt_iff.mp h
    exact ⟨.cmt a, hwf, rfl, rfl⟩
  -- the rows with every bit fixed
  all_goals obtain rfl := rowMatches_full_iff.mp h
  · exact ⟨.conv, rfl, rfl, rfl⟩
  · exact ⟨.clrp, rfl, rfl, rfl⟩
  · exact ⟨.tkrst, rfl, rfl, rfl⟩
  · exact ⟨.ctk, rfl, rfl, rfl⟩
  · exact ⟨.ovs, rfl, rfl, rfl⟩
  · exact ⟨.ign, rfl, rfl, rfl⟩
  · exact ⟨.crk, rfl, rfl, rfl⟩
  · exact ⟨.rtk, rfl, rfl, rfl⟩
  · exact ⟨.rst, rfl, rfl, rfl⟩

/-- Settles O3: both the decoder and the table answer exactly on the words of well-formed operations. -/
theorem decoderAgreesWithOpcodeTable : Obligations.DecoderAgreesWithOpcodeTable := by
  refine fun w => ⟨fun i h => ?_, fun row hrow h => ?_⟩
  · obtain ⟨hwf, rfl⟩ := wellFormed_encode_of_decode h
    exact exists_row_of_wellFormed hwf
  · obtain ⟨i, hwf, rfl, hi⟩ := exists_encode_of_rowMatches hrow h
    exact ⟨i, decode_encode hwf, hi⟩

/-! ### Reserved words -/

theorem not_indexInRange_iff {a : BitVec 4} : ¬ indexInRange a = true ↔ 7 ≤ a.toNat := by
  rw [indexInRange, decide_eq_true_iff, Nat.not_le, Nat.lt_iff_add_one_le]

/-- A format that makes one check rejects exactly the words that fail it. -/
theorem check_error_iff {p : Prop} [Decidable p] {i : Instr} {why : Reserved} :
    (∃ r, (if p then .ok i else .error why : Except Reserved Instr) = .error r) ↔ ¬ p := by
  by_cases hp : p
  · simp [hp]
  · simp [hp]

theorem decodeZ_error_iff {i : Instr} {w : OpWord} :
    (∃ why, decodeZ i w = .error why) ↔ aField w ≠ 0 ∨ dField w ≠ 0 := by
  rw [decodeZ, check_error_iff, not_and_or]

theorem decodeR_error_iff {w : OpWord} : (∃ why, decodeR w = .error why) ↔ aField w ≠ 0 := by
  rw [decodeR, check_error_iff]

theorem decodeW_error_iff {w : OpWord} : (∃ why, decodeW w = .error why) ↔ 7 ≤ (aField w).toNat := by
  rw [decodeW, check_error_iff, not_indexInRange_iff]

theorem decodeI_error_iff {w : OpWord} :
    (∃ why, decodeI w = .error why) ↔ dField w ≠ 0 ∨ 7 ≤ (aField w).toNat := by
  rw [← not_indexInRange_iff]
  by_cases hi : indexInRange (aField w) = true
  · rw [decodeI, if_pos hi, check_error_iff]
    simp [hi]
  · simp [decodeI, hi]

/-- Which words are reserved, by operation code (R66). -/
theorem decode_error_iff {w : OpWord} :
    (∃ why, decode w = .error why) ↔
      ((opField w).toNat ∈ [0x6, 0x7, 0xD, 0xE]
        ∨ ((opField w).toNat ∈ [0x3, 0x4, 0x5, 0x8, 0x9, 0xA, 0xB, 0xC, 0xF] ∧ (aField w ≠ 0 ∨ dField w ≠ 0))
        ∨ ((opField w).toNat = 0x0 ∧ aField w ≠ 0)
        ∨ ((opField w).toNat = 0x2 ∧ dField w ≠ 0)
        ∨ ((opField w).toNat ∈ [0x1, 0x2] ∧ 7 ≤ (aField w).toNat)) := by
  rw [decode]
  split
  next hop => simp [hop, decodeR_error_iff]
  next hop => simp [hop, decodeW_error_iff]
  next hop => simp [hop, decodeI_error_iff]
  case h_13 =>
    -- the four codes of no operation
    have code_lt := (opField w).isLt
    refine iff_of_true ⟨_, rfl⟩ (.inl ?_)
    simp only [imp_false] at *
    simp only [List.mem_cons, List.not_mem_nil, or_false]
    omega
  -- format Z
  all_goals
    next hop => simp [hop, decodeZ_error_iff]

/-- Bit 15 of a word that decodes is the class of its operation (R61). -/
theorem isHost_of_decode {w : OpWord} {i : Instr} (h : decode w = .ok i) : i.isHost = !w.getLsbD 15 := by
  obtain ⟨-, rfl⟩ := wellFormed_encode_of_decode h
  have bit : Laws.ClassBit.Statement i := by
    cases i with
    | rd rr => exact Laws.ClassBit.rd rr
    | wrdig a dd => exact Laws.ClassBit.wrdig a dd
    | cmt a => exact Laws.ClassBit.cmt a
    | _ => rfl
  rw [bit, Bool.not_not]

/-- A host word that is reserved, or of the pin-event class, is refused, and the hardware takes no notice (R66, D21). -/
theorem fetchHostWord_refused {w : OpWord} (h : (∃ why, decode w = .error why) ∨ w.getLsbD 15 = true) :
    ∃ r, fetchHostWord w = .refused r ∧ ∀ s, reservedEffect r s = s := by
  cases hw : decode w with
  | error why => exact ⟨.reservedWord why, by simp [fetchHostWord, hw], fun _ => rfl⟩
  | ok i =>
    have bit : w.getLsbD 15 = true := by simpa [hw] using h
    have pin : i.isHost = false := by rw [isHost_of_decode hw, bit, Bool.not_true]
    exact ⟨.pinWordOnHostPort w, by simp [fetchHostWord, hw, pin], fun _ => rfl⟩

theorem hardwareStep_of_fetch_refused {s : State} {r : Refusal} (h : fetch s = .refused r) :
    hardwareStep s = reservedEffect r (takeInput s) := by
  rw [hardwareStep, step_of_fetch_refused h]

theorem fetch_of_inputs {s : State} {x : Stimulus} {rest : List Stimulus} (h : s.inputs = x :: rest) :
    fetch s = fetchStimulus x := by
  rw [fetch, h]

theorem takeInput_of_inputs {s : State} {x : Stimulus} {rest : List Stimulus} (h : s.inputs = x :: rest) :
    takeInput s = { s with inputs := rest } := by
  rw [takeInput, h, List.tail_cons]

/-- Settles O4: the formats' checks are the conditions of R66, and the word is refused where it is fetched. -/
theorem reservedWordsRefused : Obligations.ReservedWordsRefused := by
  refine ⟨fun w => decode_error_iff, fun w s rest hin h => ?_⟩
  obtain ⟨r, hr, no_effect⟩ := fetchHostWord_refused h
  have hfetch : fetch s = .refused r := (fetch_of_inputs hin).trans hr
  refine ⟨⟨r, step_of_fetch_refused hfetch⟩, ?_⟩
  rw [hardwareStep_of_fetch_refused hfetch, no_effect, takeInput_of_inputs hin]

/-! ### The next operation -/

/-- A step with a stimulus next that is an operation runs it on the state with the rest of the inputs. -/
theorem step_of_fetchStimulus {s : State} {x : Stimulus} {rest : List Stimulus} {i : Instr}
    (hin : s.inputs = x :: rest) (hx : fetchStimulus x = .op i) : step s = exec i { s with inputs := rest } := by
  rw [step_of_fetch_op ((fetch_of_inputs hin).trans hx), takeInput_of_inputs hin]

/-- A word that decodes reaches the step as its operation, at its pin or on the host port (R61). -/
theorem fetchStimulus_stimulusOfWord {w : OpWord} {i : Instr} (h : decode w = .ok i) :
    fetchStimulus (stimulusOfWord w) = .op i := by
  obtain ⟨hwf, -⟩ := wellFormed_encode_of_decode h
  rw [stimulusOfWord, h]
  exact fetchStimulus_stimulusOf hwf

/-- Settles O6: a word with bit 15 clear is of the host class, so it is fetched as its operation. -/
theorem stepRunsTheNextOperation : Obligations.StepRunsTheNextOperation := by
  refine ⟨fun s w rest i hin hw bit => ?_, fun s e rest hin => step_of_fetchStimulus hin rfl, fun s _ w i hw => ?_⟩
  · have host : i.isHost = true := by rw [isHost_of_decode hw, bit, Bool.not_false]
    exact step_of_fetchStimulus hin (by simp [fetchStimulus, fetchHostWord, hw, host])
  · rw [State.withFetchWord, step_pushInput, fetchStimulus_stimulusOfWord hw]

/-! ### ITER -/

/-- A sequence of CMT writes the pattern of RES at each position it names, and nothing else (R142). -/
theorem runOps_cmt {idx : List (BitVec 4)} (h : ∀ i ∈ idx, i.toNat ≤ 6) (s : State) :
    ∃ t, runOps (idx.map .cmt) s = .next t ∧ t = { s with dig := t.dig }
      ∧ ∀ k : Fin 7, t.dig.get k =
          if k.val ∈ idx.map BitVec.toNat then segPattern s.params (s.res.get k) else s.dig.get k := by
  induction idx generalizing s with
  | nil => exact ⟨s, rfl, rfl, fun k => by simp⟩
  | cons i idx ih =>
    obtain ⟨hi, hidx⟩ := List.forall_mem_cons.mp h
    have hcmt := exec_cmt_of_le hi s
    generalize hj : (⟨i.toNat, Nat.lt_succ_of_le hi⟩ : Fin 7) = j at hcmt
    have hij : i.toNat = j.val := by rw [← hj]
    obtain ⟨t, ht, frame, hdig⟩ := ih hidx (writeDig j (segPattern s.params (s.res.get j)) s)
    refine ⟨t, runOps_cons_next.mpr ⟨_, hcmt, ht⟩, frame, fun k => ?_⟩
    rw [hdig, List.map_cons, hij]
    by_cases hkj : k = j
    · subst hkj
      simp [Vector.get_eq_getElem]
    · have hne : j.val ≠ k.val := fun h => hkj (Fin.ext h.symm)
      simp [Vector.get_eq_getElem, hne, Ne.symm hne]

/-- Settles O50: the seven CMT name every position, and neither they nor CLRP touch RES. -/
theorem iterationPublishesReading : Obligations.IterationPublishesReading := by
  intro s
  have hle : ∀ i ∈ ([0, 1, 2, 3, 4, 5, 6] : List (BitVec 4)), i.toNat ≤ 6 := by decide
  obtain ⟨u, hu, frame, hdig⟩ := runOps_cmt hle (runConverter s)
  refine ⟨runConverter s, clearPending u, rfl, ?_, ?_, fun k => ?_⟩
  · exact runOps_cons_next.mpr ⟨_, rfl, runOps_append_next.mpr ⟨u, hu, rfl⟩⟩
  · exact congrArg clearPending frame
  · have named : k.val ∈ ([0, 1, 2, 3, 4, 5, 6] : List (BitVec 4)).map BitVec.toNat := by revert k; decide
    exact (hdig k).trans (if_pos named)

end Sys2Proof.Machine
end

section
/-! SUPPORT. The family of the CAP unit (40_capture.md): what the four pin events of the unit do, the invariant of the
overflow race, and what a capture stores. -/
namespace Sys2Proof.Machine

/-! ### CTK, and OVS and CRK by their branch -/

theorem countTick_cnt_toNat (s : State) : (countTick s).cnt.toNat = (s.cnt.toNat + 1) % 2 ^ 16 :=
  BitVec.toNat_add s.cnt 1

theorem countTick_ovfPend (s : State) : (countTick s).ovfPend = (wrapsNext s.cnt || s.ovfPend) := by
  cases h : wrapsNext s.cnt <;> simp [countTick, overflowAfterTick, h]

/-- A tick adds one to the count with its pending wrap, but for the wrap it loses where one is pending already (R80). -/
theorem countTick_advances (s : State) :
    (countTick s).ovfPend.toNat * 65536 + (countTick s).cnt.toNat + (s.ovfPend && wrapsNext s.cnt).toNat * 65536
      = s.ovfPend.toNat * 65536 + s.cnt.toNat + 1 := by
  have cnt_lt := s.cnt.isLt
  have wraps := wrapsNext_iff s.cnt
  rw [countTick_cnt_toNat, countTick_ovfPend]
  cases hw : wrapsNext s.cnt with
  | true =>
    have top : s.cnt.toNat = 65535 := wraps.mp hw
    simp only [Bool.true_or, Bool.and_true, Bool.toNat_true]
    omega
  | false =>
    have below : s.cnt.toNat ≠ 65535 := fun h => by simp [wraps.mpr h] at hw
    simp only [Bool.false_or, Bool.and_false, Bool.toNat_false]
    omega

theorem serveOverflow_of_clear {s : State} (h : s.ovfPend = false) : serveOverflow s = s := by
  simp [serveOverflow, h]

theorem serveOverflow_of_pending {s : State} (h : s.ovfPend = true) :
    serveOverflow s = { s with ext := s.ext + 1, ovfPend := false } := by
  simp [serveOverflow, h]

theorem captureCrank_of_suppressed {s : State} (h : s.suppress = true) : captureCrank s = s := by
  simp [captureCrank, h]

theorem captureCrank_of_clear {s : State} (h : s.suppress = false) :
    captureCrank s = { s with crkTs := snapshot s, crkPend := true, suppress := true } := by
  simp [captureCrank, h]

/-! ### The invariant of the overflow race -/

/-- The invariant speaks of three fields: a state that agrees in these has it too. -/
theorem EpochInv.of_same_count {s t : State} {e : Epoch} (hs : EpochInv s e) (hcnt : t.cnt = s.cnt)
    (hext : t.ext = s.ext) (hovf : t.ovfPend = s.ovfPend) : EpochInv t e := by
  rw [EpochInv, hcnt, hext, hovf]
  exact hs

theorem epochInv_resetWith (p : Params) : EpochInv (State.resetWith p) Epoch.start := by
  simp [EpochInv, State.resetWith, Epoch.start]

theorem epochInv_resetBlock (s : State) : EpochInv (resetBlock s) Epoch.start :=
  (epochInv_resetWith s.params).of_same_count rfl rfl rfl

/-- By R29 none but CTK, OVS, IGN and RST touches the count. -/
theorem same_count_of_exec {i : Instr} {s t : State} (h : exec i s = .next t)
    (hi : i ∉ [Instr.ctk, .ovs, .ign, .rst]) : t.cnt = s.cnt ∧ t.ext = s.ext ∧ t.ovfPend = s.ovfPend := by
  simp only [List.mem_cons, List.not_mem_nil, or_false, not_or] at hi
  obtain ⟨hcnt, hext, hovf, -⟩ := onlyOwnersWrite i s t h
  refine ⟨by_contra fun hne => ?_, by_contra fun hne => ?_, by_contra fun hne => ?_⟩
  · simpa [hi] using hcnt hne
  · simpa [hi] using hext hne
  · simpa [hi] using hovf hne

/-- A lost wrap is counted as it happens (R85). -/
theorem epochAfter_ctk (s : State) (e : Epoch) :
    epochAfter .ctk s e = ⟨e.ticks + 1, e.stale, e.lost + (s.ovfPend && wrapsNext s.cnt).toNat⟩ := by
  cases h : s.ovfPend && wrapsNext s.cnt <;> simp [epochAfter, h]

/-- CTK moves both sides of the invariant by one. -/
theorem epochInv_countTick {s : State} {e : Epoch} (h : EpochInv s e) :
    EpochInv (countTick s) (epochAfter .ctk s e) := by
  have tick := countTick_advances s
  have count_succ : (s.ext.toNat + (countTick s).ovfPend.toNat) * 65536 + (countTick s).cnt.toNat
      + 65536 * (e.lost + (s.ovfPend && wrapsNext s.cnt).toNat)
      = (s.ext.toNat + s.ovfPend.toNat) * 65536 + s.cnt.toNat + 65536 * e.lost + 1 := by linarith
  have ticks_succ : e.ticks + 1 + 65536 * e.stale.toNat = e.ticks + 65536 * e.stale.toNat + 1 := by omega
  have ext_same : (countTick s).ext = s.ext := rfl
  simp only [EpochInv, epochAfter_ctk, ext_same, count_succ, ticks_succ]
  exact Nat.ModEq.add_right 1 h

/-- OVS moves the pending wrap into EXT, modulo 256 (R81). -/
theorem epochInv_serveOverflow {s : State} {e : Epoch} (h : EpochInv s e) : EpochInv (serveOverflow s) e := by
  cases hp : s.ovfPend with
  | false => rwa [serveOverflow_of_clear hp]
  | true =>
    have ext_succ : (s.ext + 1).toNat * 65536 ≡ (s.ext.toNat + 1) * 65536 [MOD 2 ^ 24] := by
      rw [show (s.ext + 1).toNat = (s.ext.toNat + 1) % 2 ^ 8 from BitVec.toNat_add s.ext 1]
      exact (Nat.mod_modEq _ _).mul_right' 65536
    rw [serveOverflow_of_pending hp]
    simp only [EpochInv, hp, Bool.toNat_true, Bool.toNat_false] at h ⊢
    exact ((ext_succ.add_right _).add_right _).trans h

/-- IGN begins an epoch in which the request it leaves pending is stale (R85). -/
theorem epochInv_captureIgnition (s : State) (e : Epoch) : EpochInv (captureIgnition s) (epochAfter .ign s e) := by
  simp [EpochInv, captureIgnition, epochAfter, Nat.mul_comm]

/-- Settles O21, operation by operation: the four that move the count each keep the balance, and no other touches it. -/
theorem raceInvariantKept : Obligations.RaceInvariantKept := by
  intro i s t e hs h
  cases i with
  | ctk => cases h; exact epochInv_countTick hs
  | ovs => cases h; exact epochInv_serveOverflow hs
  | ign => cases h; exact epochInv_captureIgnition s e
  | rst => cases h; exact epochInv_resetBlock s
  | _ =>
    obtain ⟨hcnt, hext, hovf⟩ := same_count_of_exec h (by simp)
    exact hs.of_same_count hcnt hext hovf

/-- Settles O20: the count, the request and the three quantities are 0. -/
theorem raceInvariantAfterReset : Obligations.RaceInvariantAfterReset :=
  ⟨epochInv_resetWith, fun s => ⟨resetBlock s, rfl, epochInv_resetBlock s⟩⟩

/-! ### Exact epochs -/

theorem servedBefore_iff {i : Instr} {s : State} :
    servedBefore i s = true ↔ (wantsServed i s = true → s.ovfPend = false) := by
  cases hw : wantsServed i s <;> simp [servedBefore, hw]

/-- An operation that finds no wanted service outstanding leaves no stale request and loses no wrap. -/
theorem exactEpoch_exec {i : Instr} {s t : State} {e : Epoch} (hs : ExactEpoch s e) (hi : servedBefore i s = true)
    (h : exec i s = .next t) : ExactEpoch t (epochAfter i s e) := by
  obtain ⟨inv, not_stale, none_lost⟩ := hs
  have served := servedBefore_iff.mp hi
  refine ⟨raceInvariantKept i s t e inv h, ?_, ?_⟩
  · cases i with
    | ign => exact served rfl
    | rst => rfl
    | _ => exact not_stale
  · cases i with
    | ctk =>
      have no_wrap_lost : (s.ovfPend && wrapsNext s.cnt) = false := by
        cases hw : wrapsNext s.cnt with
        | true => rw [served hw, Bool.false_and]
        | false => rw [Bool.and_false]
      simp [epochAfter, no_wrap_lost, none_lost]
    | ign => rfl
    | rst => rfl
    | _ => exact none_lost

/-- What is wanted, and the epoch after, do not turn on the operations still to come. -/
@[simp] theorem servedBefore_takeInput (i : Instr) (s : State) : servedBefore i (takeInput s) = servedBefore i s := rfl

@[simp] theorem epochAfter_takeInput (i : Instr) (s : State) (e : Epoch) :
    epochAfter i (takeInput s) e = epochAfter i s e := rfl

theorem exactEpoch_takeInput {s : State} {e : Epoch} (h : ExactEpoch s e) : ExactEpoch (takeInput s) e :=
  ⟨h.inv.of_same_count rfl rfl rfl, h.not_stale, h.none_lost⟩

/-- Settles O57: an idle step changes nothing, and any other runs one operation, which keeps the epoch exact. -/
theorem promptStepKeepsCapturesExact : Obligations.PromptStepKeepsCapturesExact := by
  intro s t e hs hp h
  obtain ⟨hf, rfl⟩ | ⟨i, hf, hi⟩ := step_next_cases h
  · simpa [epochAfterStep, hf] using hs
  · have served : servedBefore i (takeInput s) = true := by simpa [promptStep, hf] using hp
    simpa [epochAfterStep, hf] using exactEpoch_exec (exactEpoch_takeInput hs) served hi

/-! ### What a capture stores -/

/-- Under the invariant EXT :: CNT is the formula of R85. -/
theorem snapshot_toNat_of_epochInv {s : State} {e : Epoch} (h : EpochInv s e) :
    ((snapshot s).toNat : Int) = raceFormula e s.ovfPend := by
  have ext_lt := s.ext.isLt
  have cnt_lt := s.cnt.isLt
  rw [EpochInv] at h
  rw [snapshot_toNat, raceFormula]
  omega

/-- Settles O22: both captures store the snapshot of the state before. -/
theorem captureStoresRaceFormula : Obligations.CaptureStoresRaceFormula := by
  refine fun s e h => ⟨⟨captureIgnition s, rfl, snapshot_toNat_of_epochInv h⟩, fun hclear => ?_⟩
  exact ⟨_, congrArg Host.Outcome.next (captureCrank_of_clear hclear), snapshot_toNat_of_epochInv h⟩

/-- In an exact epoch with no request pending EXT :: CNT is the number of ticks modulo 2^24 (R185). -/
theorem snapshot_toNat_of_exactEpoch {s : State} {e : Epoch} (h : ExactEpoch s e) (hp : s.ovfPend = false) :
    (snapshot s).toNat = e.ticks % 2 ^ 24 := by
  obtain ⟨inv, not_stale, none_lost⟩ := h
  have formula := snapshot_toNat_of_epochInv inv
  simp only [raceFormula, hp, not_stale, none_lost, Bool.toNat_false] at formula
  omega

/-- The ticks of the epoch are those counted off the sequence, one operation more. -/
theorem ticksSinceEpoch_concat {ops : List Instr} {e : Epoch} (he : e.ticks = ticksSinceEpoch ops) (i : Instr)
    (s : State) : (epochAfter i s e).ticks = ticksSinceEpoch (ops ++ [i]) := by
  rw [ticksSinceEpoch, List.foldl_concat, ← ticksSinceEpoch, ← he]
  cases i <;> rfl

/-- PromptOVS of a sequence is that of a first part, and that of the rest from the state the first part left. -/
theorem promptOVS_append {xs ys : List Instr} {s t : State} (h : runOps xs s = .next t) :
    promptOVS (xs ++ ys) s = (promptOVS xs s && promptOVS ys t) := by
  induction xs generalizing s with
  | nil => cases h; rfl
  | cons x xs ih =>
    obtain ⟨u, hu, hrest⟩ := runOps_cons_next.mp h
    simp only [List.cons_append, promptOVS, hu, ih hrest, Bool.and_assoc]

/-- A sequence under PromptOVS that ends in one operation more: the premise held before that operation, which finds no
wanted service outstanding. -/
theorem promptOVS_concat {ops : List Instr} {i : Instr} {s t : State}
    (h : runOps ops s = .next t) (hp : promptOVS (ops ++ [i]) s = true) :
    promptOVS ops s = true ∧ servedBefore i t = true := by
  rw [promptOVS_append h, Bool.and_eq_true, promptOVS, Bool.and_eq_true] at hp
  obtain ⟨before, now, -⟩ := hp
  exact ⟨before, now⟩

/-- Under PromptOVS every state from reset is in an exact epoch, by induction on the sequence from its end (R185). -/
theorem exactEpoch_of_promptOVS {p : Params} {ops : List Instr} {t : State}
    (h : runOps ops (State.resetWith p) = .next t) (hp : promptOVS ops (State.resetWith p) = true) :
    ∃ e : Epoch, e.ticks = ticksSinceEpoch ops ∧ ExactEpoch t e := by
  induction ops using List.reverseRecOn generalizing t with
  | nil =>
    cases h
    exact ⟨Epoch.start, rfl, epochInv_resetWith p, rfl, rfl⟩
  | append_singleton ops i ih =>
    obtain ⟨u, hops, hi⟩ := runOps_append_next.mp h
    obtain ⟨v, hiv, hv⟩ := runOps_cons_next.mp hi
    cases hv
    obtain ⟨before, now⟩ := promptOVS_concat hops hp
    obtain ⟨e, he, hu⟩ := ih hops before
    exact ⟨epochAfter i u e, ticksSinceEpoch_concat he i u, exactEpoch_exec hu now hiv⟩

/-- Before a capture under PromptOVS, EXT :: CNT is the number of CTK since the last IGN or RST (R185). -/
theorem snapshot_toNat_of_promptOVS {p : Params} {ops : List Instr} {i : Instr} {u : State}
    (hops : runOps ops (State.resetWith p) = .next u) (hp : promptOVS (ops ++ [i]) (State.resetWith p) = true)
    (hcap : wantsServed i u = true) : (snapshot u).toNat = ticksSinceEpoch ops % 2 ^ 24 := by
  obtain ⟨before, now⟩ := promptOVS_concat hops hp
  obtain ⟨e, he, hu⟩ := exactEpoch_of_promptOVS hops before
  rw [← he]
  exact snapshot_toNat_of_exactEpoch hu (servedBefore_iff.mp now hcap)

/-- Settles O23: the final IGN, or the final accepted CRK, stores the snapshot of the state before it. -/
theorem promptServiceMakesCapturesExact : Obligations.PromptServiceMakesCapturesExact := by
  refine fun p ops t => ⟨fun h hp => ?_, fun u hu hclear h hp => ?_⟩
  · obtain ⟨u, hu, hi⟩ := runOps_append_next.mp h
    cases hi
    exact snapshot_toNat_of_promptOVS hu hp rfl
  · rw [runOps_concat, hu] at h
    cases h
    rw [captureCrank_of_clear hclear]
    exact snapshot_toNat_of_promptOVS hu hp rfl

/-! ### The noise suppression -/

/-- From `s` to `t` no crank edge was accepted (R83 c): SUPPRESS stands, CRK_TS is as it was, and no crank event came
up. -/
def NoCrankAccepted (s t : State) : Prop :=
  t.suppress = true ∧ t.crkTs = s.crkTs ∧ (t.crkPend = true → s.crkPend = true)

theorem NoCrankAccepted.trans {s t u : State} (hst : NoCrankAccepted s t) (htu : NoCrankAccepted t u) :
    NoCrankAccepted s u := by
  obtain ⟨-, hts, hpend⟩ := hst
  obtain ⟨hsup, hts', hpend'⟩ := htu
  exact ⟨hsup, hts'.trans hts, hpend ∘ hpend'⟩

/-- Under SUPPRESS any operation but IGN and RST accepts none: CRK changes nothing, CLRP clears the crank event, and by
R29 no other touches the three items. -/
theorem noCrankAccepted_exec {i : Instr} {s t : State} (hs : s.suppress = true) (hi : i ≠ .ign ∧ i ≠ .rst)
    (h : exec i s = .next t) : NoCrankAccepted s t := by
  obtain ⟨hign, hrst⟩ := hi
  by_cases hcrk : i = .crk
  · subst hcrk
    rw [exec_crk, captureCrank_of_suppressed hs] at h
    cases h
    exact ⟨hs, rfl, id⟩
  obtain ⟨-, -, -, -, -, hts, hpend, hsup, -⟩ := onlyOwnersWrite i s t h
  refine ⟨?_, by_contra fun hne => ?_, fun ht => by_contra fun hne => ?_⟩
  · have same : t.suppress = s.suppress := by_contra fun hne => by simpa [hign, hrst, hcrk] using hsup hne
    rw [same, hs]
  · simpa [hrst, hcrk] using hts hne
  · have clrp : i = .clrp := by simpa [hrst, hcrk] using hpend (fun heq => hne (heq ▸ ht))
    subst clrp
    cases h
    cases ht

/-- Settles O18: what each operation of the sequence keeps, the sequence keeps. -/
theorem oneCrankBetweenIgnitions : Obligations.OneCrankBetweenIgnitions := fun _ s _ hs hops h =>
  runOps_keeps (P := NoCrankAccepted s)
    (fun i hi _ _ hu huv => hu.trans (noCrankAccepted_exec hu.1 (hops i hi) huv)) ⟨hs, rfl, id⟩ h

/-! ### The four operations -/

/-- Settles O14 (`countTick` is the model's own function). -/
theorem countTick_spec : Obligations.CountTick := by
  refine fun s => ⟨countTick s, rfl, rfl, countTick_cnt_toNat s, ?_⟩
  rw [countTick_ovfPend, Bool.or_eq_true, or_comm, wrapsNext, beq_iff_eq]

/-- Settles O15, by whether a request is pending. -/
theorem overflowService : Obligations.OverflowService := by
  intro s
  refine ⟨serveOverflow s, rfl, ?_, fun hp => ?_, serveOverflow_of_clear⟩
  · rw [serveOverflow_eq]
  · rw [serveOverflow_of_pending hp]
    exact BitVec.toNat_add s.ext 1

/-- Settles O16: the timestamp is the snapshot, whose bytes are the counter's and EXT. -/
theorem ignitionEdge : Obligations.IgnitionEdge := by
  intro s
  obtain ⟨low, high, ext⟩ := snapshot_bytes s
  exact ⟨captureIgnition s, rfl, rfl, low, high, ext, snapshot_toNat s⟩

/-- Settles O17, by whether SUPPRESS is set. -/
theorem crankEdge : Obligations.CrankEdge := by
  intro s
  obtain ⟨low, high, ext⟩ := snapshot_bytes s
  refine ⟨fun hs => congrArg Host.Outcome.next (captureCrank_of_suppressed hs), fun hs => ?_⟩
  exact ⟨_, congrArg Host.Outcome.next (captureCrank_of_clear hs), rfl, low, high, ext⟩

/-! ### Pin events repeated -/

theorem serveOverflow_serveOverflow (s : State) : serveOverflow (serveOverflow s) = serveOverflow s :=
  serveOverflow_of_clear (by rw [serveOverflow_eq])

theorem captureCrank_captureCrank (s : State) : captureCrank (captureCrank s) = captureCrank s :=
  captureCrank_of_suppressed (by rw [captureCrank_eq])

theorem nextPos_ne (p : Fin 7) : nextPos p ≠ p := by revert p; decide

/-- EXT :: CNT is 0 only where both are. -/
theorem snapshot_eq_zero_iff {s : State} : snapshot s = 0 ↔ s.cnt = 0 ∧ s.ext = 0 := by
  simp only [BitVec.toNat_eq, snapshot_toNat, BitVec.ofNat_eq_ofNat, BitVec.toNat_zero]
  omega

/-- Settles O58: OVS clears its request and CRK arms its own suppression, while CTK and RTK step on, and the second IGN
captures the count the first restarted. -/
theorem pinEventsRepeated : Obligations.PinEventsRepeated := by
  intro s
  refine ⟨⟨_, rfl, congrArg Host.Outcome.next (serveOverflow_serveOverflow s)⟩,
    ⟨_, rfl, congrArg Host.Outcome.next (captureCrank_captureCrank s)⟩, ⟨_, _, rfl, rfl, fun h => ?_⟩,
    ⟨_, _, rfl, rfl, ?_⟩, fun h => ⟨_, _, rfl, rfl, ?_, fun hz => ?_⟩⟩
  · have tick := countTick_cnt_toNat (countTick s)
    rw [h] at tick
    omega
  · rw [refreshTick_eq (refreshTick s)]
    exact nextPos_ne _
  · exact snapshot_eq_zero_iff.mpr ⟨rfl, rfl⟩
  · obtain ⟨hcnt, hext⟩ := snapshot_eq_zero_iff.mp hz
    exact h.elim (absurd hcnt) (absurd hext)

end Sys2Proof.Machine
end

section
/-! SUPPORT. The family of the converter (41_converter.md): the digits of a 32-bit value as decimal digits, where
the digits of a conversion stand, the laws of R111, and CONV by these laws. -/
namespace Sys2Proof.Machine

/-! ### Decimal digits -/

theorem digits_get (n : Nat) (v : Word32) (k : Fin n) : (digits n v).get k = decimalDigit v.toNat k.val := by
  simp [digits, Vector.get_eq_getElem, lowDigit, decimalDigit, divTen_toNat]

theorem digits_toList (n : Nat) (v : Word32) :
    (digits n v).toList = List.ofFn fun k : Fin n => lowDigit (divTen k.val v) := Array.toList_ofFn

theorem digits_succ_toList (n : Nat) (v : Word32) :
    (digits (n + 1) v).toList = lowDigit v :: (digits n (v / 10)).toList := by
  simp [digits_toList, List.ofFn_succ, divTen]

theorem decimalValue_digits (n : Nat) (v : Word32) : decimalValue (digits n v).toList = v.toNat % 10 ^ n := by
  induction n generalizing v with
  | zero => simp [digits_toList, decimalValue, Nat.mod_one]
  | succ n ih =>
    calc decimalValue (digits (n + 1) v).toList
        = v.toNat % 10 + 10 * decimalValue (digits n (v / 10)).toList := by rw [digits_succ_toList]; rfl
      _ = v.toNat % 10 + 10 * (v.toNat / 10 % 10 ^ n) := by rw [ih]; rfl
      _ = v.toNat % 10 ^ (n + 1) := by rw [Nat.pow_succ', Nat.mod_mul]

/-- Settles O32, the value by induction on the number of digits. -/
theorem digitsAreDecimal : Obligations.DigitsAreDecimal := fun n v => ⟨digits_get n v, decimalValue_digits n v⟩

/-- The digits below place `w` depend on the number modulo 10^w only. -/
theorem decimalDigit_congr {m n k w : Nat} (hk : k < w) (h : m ≡ n [MOD 10 ^ w]) :
    decimalDigit m k = decimalDigit n k := by
  have low : m % 10 ^ (k + 1) = n % 10 ^ (k + 1) := h.of_dvd (pow_dvd_pow 10 hk)
  have digit : m / 10 ^ k % 10 = n / 10 ^ k % 10 := by
    rw [← Nat.mod_mul_right_div_self, ← Nat.mod_mul_right_div_self, ← Nat.pow_succ, low]
  simp only [decimalDigit, digit]

/-! ### Where the digits of a conversion stand -/

section
variable (p : Params) (drawn : Vector DigitCode 3) (its : Timestamp) (cp : Bool) (cts : Timestamp)

/-- The advance positions of a conversion with an ignition event (R101). -/
def advancePart : Vector DigitCode 3 :=
  if cp then advDigits drawn (cts.setWidth 32) (its.setWidth 32) else Vector.replicate 3 .dash

theorem convertTimestamps_toList :
    (convertTimestamps p drawn true its cp cts).toList
      = (rpmDigits p (its.setWidth 32)).toList ++ (advancePart drawn its cp cts).toList :=
  Vector.toList_append

theorem convertTimestamps_take_four :
    (convertTimestamps p drawn true its cp cts).toList.take 4 = (rpmDigits p (its.setWidth 32)).toList := by
  rw [convertTimestamps_toList, List.take_left' Vector.length_toList]

theorem convertTimestamps_drop_four :
    (convertTimestamps p drawn true its cp cts).toList.drop 4 = (advancePart drawn its cp cts).toList := by
  rw [convertTimestamps_toList, List.drop_left' Vector.length_toList]

theorem convertTimestamps_get_rpm (k : Fin 7) (hk : k.val < 4) :
    (convertTimestamps p drawn true its cp cts).get k = (rpmDigits p (its.setWidth 32)).get ⟨k.val, hk⟩ :=
  Vector.getElem_append_left hk

theorem convertTimestamps_get_advance (k : Fin 7) (hk : 4 ≤ k.val) :
    (convertTimestamps p drawn true its cp cts).get k = (advancePart drawn its cp cts).get ⟨k.val - 4, by omega⟩ :=
  Vector.getElem_append_right k.isLt hk

end

/-! ### The RPM and advance digits by case -/

/-- Below MINCOUNT: nines (R104). -/
theorem rpmDigits_of_lt {p : Params} {its : Timestamp} (h : its.toNat < p.minCount.toNat) :
    rpmDigits p (its.setWidth 32) = Vector.replicate 4 (.digit 9) := by
  rw [rpmDigits, setWidth_toNat_timestamp, if_pos h]

/-- At MINCOUNT or above: the digits of the quotient (R103). -/
theorem rpmDigits_of_le {p : Params} {its : Timestamp} (h : p.minCount.toNat ≤ its.toNat) :
    rpmDigits p (its.setWidth 32) = digits 4 (p.ignitionFactor / its.setWidth 32) := by
  rw [rpmDigits, setWidth_toNat_timestamp, if_neg (Nat.not_lt.mpr h)]

theorem rpmQuotient_toNat (p : Params) (its : Timestamp) :
    (p.ignitionFactor / its.setWidth 32).toNat = p.ignitionFactor.toNat / its.toNat := by
  rw [BitVec.toNat_udiv, setWidth_toNat_timestamp]

/-- At an interval other than 0, with a crank event: the digits of the advance (R105). -/
theorem advancePart_of_pos (drawn : Vector DigitCode 3) {its : Timestamp} (cts : Timestamp) (h : 0 < its.toNat) :
    advancePart drawn its true cts = digits 3 (advance (cts.setWidth 32) (its.setWidth 32)) := by
  have nonzero : its.setWidth 32 ≠ 0 := fun hz => by simp [(setWidth_timestamp_eq_zero its).mp hz] at h
  exact if_neg nonzero

/-- The quotient of R105 keeps to 32 bits, as its product does (R110). -/
theorem advanceQuotient_lt (its cts : Timestamp) : 180 * cts.toNat / its.toNat < 2 ^ 32 := by
  have hc := cts.isLt
  exact Nat.lt_of_le_of_lt (Nat.div_le_self _ _) (by omega)

theorem advance_toNat_of_le {its cts : Timestamp} (h : 28 ≤ 180 * cts.toNat / its.toNat) :
    (advance (cts.setWidth 32) (its.setWidth 32)).toNat = 180 * cts.toNat / its.toNat - 28 := by
  have hq := advanceQuotient_lt its cts
  rw [advance_toNat]
  omega

theorem advance_toNat_of_lt {its cts : Timestamp} (h : 180 * cts.toNat / its.toNat < 28) :
    (advance (cts.setWidth 32) (its.setWidth 32)).toNat = 180 * cts.toNat / its.toNat + 2 ^ 32 - 28 := by
  rw [advance_toNat]
  omega

/-- With both events pending and an interval other than 0, RES[4..6] are the digits of the advance (R101, R105). -/
theorem convertTimestamps_get_advance_of_pos (p : Params) (drawn : Vector DigitCode 3) {its : Timestamp}
    (cts : Timestamp) (h : 0 < its.toNat) (k : Fin 7) (hk : 4 ≤ k.val) :
    (convertTimestamps p drawn true its true cts).get k
      = decimalDigit (advance (cts.setWidth 32) (its.setWidth 32)).toNat (k.val - 4) := by
  rw [convertTimestamps_get_advance p drawn its true cts k hk, advancePart_of_pos drawn cts h, digits_get]

theorem decimalValue_convertTimestamps_advance (p : Params) (drawn : Vector DigitCode 3) {its : Timestamp}
    (cts : Timestamp) (h : 0 < its.toNat) :
    decimalValue ((convertTimestamps p drawn true its true cts).toList.drop 4)
      = (advance (cts.setWidth 32) (its.setWidth 32)).toNat % 1000 := by
  rw [convertTimestamps_drop_four, advancePart_of_pos drawn cts h]
  exact decimalValue_digits 3 _

/-! ### The crank timestamp of an advance -/

/-- For an advance of at most 152 the crank timestamp is at most the interval, so its 24 bits hold it. -/
theorem crankTimestampFor_toNat {a : Nat} (its : Timestamp) (ha : a ≤ 152) :
    (crankTimestampFor a its).toNat = ((a + 28) * its.toNat + 179) / 180 := by
  have hi := its.isLt
  have scaled : (a + 28) * its.toNat ≤ 180 * its.toNat := Nat.mul_le_mul_right _ (by omega)
  rw [crankTimestampFor, BitVec.toNat_ofNat]
  omega

/-- Dividing the rounded-up crank timestamp by the interval gives the angle back, since rounding up adds less than 180
(R111). -/
theorem advanceQuotient_of_ceil {b i c : Nat} (hi : 180 ≤ i) (hc : c = (b * i + 179) / 180) : 180 * c / i = b := by
  have lower : b * i ≤ 180 * c := by omega
  have upper : 180 * c < (b + 1) * i := by
    rw [Nat.add_one_mul b i]
    omega
  exact Nat.div_eq_of_lt_le lower upper

/-- Below 180 the advances 151 and 152 round up to one crank timestamp, the interval itself. -/
theorem crankTimestampFor_shared {its : Timestamp} (h : its.toNat < 180) :
    crankTimestampFor 151 its = crankTimestampFor 152 its := by
  apply BitVec.eq_of_toNat_eq
  rw [crankTimestampFor_toNat its (by decide), crankTimestampFor_toNat its (by decide)]
  omega

/-! ### The laws of R111 -/

/-- The digits of the round trip, for any crank timestamp that is the rounded-up one. -/
theorem convertTimestamps_get_of_ceil (p : Params) (drawn : Vector DigitCode 3) {a : Nat} {its cts : Timestamp}
    (hi : 180 ≤ its.toNat) (hc : cts.toNat = ((a + 28) * its.toNat + 179) / 180) (k : Fin 7) (hk : 4 ≤ k.val) :
    (convertTimestamps p drawn true its true cts).get k = decimalDigit a (k.val - 4) := by
  have quotient : 180 * cts.toNat / its.toNat = a + 28 := advanceQuotient_of_ceil hi hc
  rw [convertTimestamps_get_advance_of_pos p drawn cts (by omega) k hk, advance_toNat_of_le (by omega), quotient,
    Nat.add_sub_cancel]

theorem converterLaws (p : Params) : ConverterLaws p where
  rpm_digits drawn its cp cts h := by
    refine ⟨fun k hk => ?_, ?_⟩
    · rw [convertTimestamps_get_rpm p drawn its cp cts k hk, rpmDigits_of_le h, digits_get, rpmQuotient_toNat]
    · rw [convertTimestamps_take_four, rpmDigits_of_le h, ← rpmQuotient_toNat]
      exact decimalValue_digits 4 _
  rpm_nines drawn its cp cts h k hk := by
    rw [convertTimestamps_get_rpm p drawn its cp cts k hk, rpmDigits_of_lt h]
    exact Vector.getElem_replicate hk
  advance_digits drawn its cts h := by
    have shown := And.intro (convertTimestamps_get_advance_of_pos p drawn cts h)
      (decimalValue_convertTimestamps_advance p drawn cts h)
    exact ⟨fun hq => advance_toNat_of_le hq ▸ shown, fun hq => advance_toNat_of_lt hq ▸ shown⟩
  no_crank drawn its cts k hk := by
    rw [convertTimestamps_get_advance p drawn its false cts k hk]
    exact Vector.getElem_replicate (by omega)
  no_ignition _ _ _ _ k := Vector.getElem_replicate k.isLt
  round_trip drawn a its ha hi :=
    have ceil := crankTimestampFor_toNat its ha
    ⟨advanceQuotient_of_ceil hi ceil, convertTimestamps_get_of_ceil p drawn hi ceil⟩
  shared_crank its _ h := ⟨151, 152, by decide, by decide, crankTimestampFor_shared h⟩

/-- Settles O59: the parameters enter the laws by their names only, so one proof serves every setting. -/
theorem converterObeysItsLaws : Obligations.ConverterObeysItsLaws := converterLaws

/-! ### CONV -/

/-- RES after CONV is the conversion of the capture registers (R100). -/
theorem runConverter_res (s : State) :
    (runConverter s).res = convertTimestamps s.params (drawnDigits s.draws) s.ignPend s.ignTs s.crkPend s.crkTs := rfl

theorem timestamp_pos_iff {x : Timestamp} : 0 < x.toNat ↔ x ≠ 0 := by
  simp [BitVec.toNat_eq, Nat.pos_iff_ne_zero]

/-- CONV changes RES and the count of draws only. -/
theorem runConverter_writes (s : State) :
    runConverter s = { s with res := (runConverter s).res, draws := (runConverter s).draws } := rfl

/-- The count of draws moves by three in the case of R106. -/
theorem runConverter_draws_of_zero_interval {s : State} (hip : s.ignPend = true) (hcp : s.crkPend = true)
    (hits : s.ignTs = 0) : (runConverter s).draws = s.draws + 3 :=
  if_pos ((convDraws_iff s).mpr ⟨hip, hcp, hits⟩)

/-- RES[4..6] are the digits drawn in the case of R106. -/
theorem runConverter_res_of_zero_interval {s : State} (hip : s.ignPend = true) (hcp : s.crkPend = true)
    (hits : s.ignTs = 0) (k : Fin 7) (hk : 4 ≤ k.val) :
    (runConverter s).res.get k = .digit (Config.freeDigit (s.draws + (k.val - 4))) := by
  rw [runConverter_res_advance hip k hk, if_pos hcp, advDigits, if_pos ((setWidth_timestamp_eq_zero _).mpr hits),
    drawnDigits_get]

/-- Settles O24, by whether the conversion meets the case of R106. -/
theorem convChangesOnlyResults : Obligations.ConvChangesOnlyResults := fun s =>
  ⟨runConverter s, rfl, runConverter_writes s, fun h => if_neg (mt (convDraws_iff s).mp h),
    fun ⟨hip, hcp, hits⟩ =>
      ⟨runConverter_draws_of_zero_interval hip hcp hits, runConverter_res_of_zero_interval hip hcp hits⟩⟩

/-- Settles O25: without an ignition event nothing is drawn. -/
theorem convWithoutIgnition : Obligations.ConvWithoutIgnition := fun s hip =>
  ⟨runConverter s, rfl, runConverter_frame (by simp [hip]), runConverter_res_of_no_ignition hip⟩

/-- Settles O26, by the law (d). -/
theorem convWithoutCrank : Obligations.ConvWithoutCrank := by
  intro s hip hcp
  refine ⟨runConverter s, rfl, runConverter_frame (by simp [hcp]), ?_⟩
  rw [runConverter_res, hip, hcp]
  exact (converterLaws s.params).no_crank _ _ _

/-- Settles O27, by the law (a). MINCOUNT is at least 1, so the interval is not the 0 of R106 and nothing is drawn. -/
theorem convPlausibleRpm : Obligations.ConvPlausibleRpm := by
  intro s hip hits
  have nonzero : s.ignTs ≠ 0 := timestamp_pos_iff.mp (Nat.lt_of_lt_of_le s.params.minCount_pos hits)
  refine ⟨runConverter s, rfl, runConverter_frame fun ⟨_, _, hz⟩ => nonzero hz, ?_⟩
  rw [runConverter_res, hip]
  exact ((converterLaws s.params).rpm_digits _ _ _ _ hits).left

/-- Below MINCOUNT RES[0..3] are nines (R104). -/
theorem runConverter_res_nines {s : State} (hip : s.ignPend = true) (h : s.ignTs.toNat < s.params.minCount.toNat)
    (k : Fin 7) (hk : k.val < 4) : (runConverter s).res.get k = .digit 9 := by
  rw [runConverter_res, hip]
  exact (converterLaws s.params).rpm_nines _ _ _ _ h k hk

/-- Settles O28, by the law (b). -/
theorem convImplausibleRpm : Obligations.ConvImplausibleRpm := fun s hip hits =>
  ⟨runConverter s, rfl, runConverter_writes s, runConverter_res_nines hip hits⟩

/-- Settles O31: 0 is below MINCOUNT, whatever MINCOUNT is. -/
theorem convZeroIntervalDraws : Obligations.ConvZeroIntervalDraws := by
  intro s hip hcp hits
  have below : s.ignTs.toNat < s.params.minCount.toNat := by rw [hits]; exact s.params.minCount_pos
  exact ⟨runConverter s, rfl, runConverter_writes s, runConverter_res_nines hip below,
    fun k hk => ⟨_, runConverter_res_of_zero_interval hip hcp hits k hk⟩⟩

/-- RES[4..6] after a CONV with both events pending and an interval other than 0 (R105). -/
theorem runConverter_res_of_nonzero {s : State} (hip : s.ignPend = true) (hcp : s.crkPend = true) (hits : s.ignTs ≠ 0)
    (k : Fin 7) (hk : 4 ≤ k.val) :
    (runConverter s).res.get k
      = decimalDigit ((180 * s.crkTs.toNat / s.ignTs.toNat + 2 ^ 32 - 28) % 2 ^ 32) (k.val - 4) := by
  rw [runConverter_res, hip, hcp, convertTimestamps_get_advance_of_pos _ _ _ (timestamp_pos_iff.mpr hits) k hk,
    advance_toNat]

/-- Settles O29, by the advance as natural numbers. -/
theorem convAdvanceDigits : Obligations.ConvAdvanceDigits := fun s hip hcp hits =>
  ⟨runConverter s, rfl, runConverter_frame fun ⟨_, _, hz⟩ => hits hz, runConverter_res_of_nonzero hip hcp hits⟩

/-- Settles O30: 2^32 - 28 is 268 modulo 1000. -/
theorem negativeAdvanceShows268 : Obligations.NegativeAdvanceShows268 := by
  intro s hip hcp hits hq
  refine ⟨runConverter s, rfl, fun k hk => ?_⟩
  rw [runConverter_res_of_nonzero hip hcp hits k hk]
  have wrapped : (180 * s.crkTs.toNat / s.ignTs.toNat + 2 ^ 32 - 28) % 2 ^ 32
      ≡ 268 + 180 * s.crkTs.toNat / s.ignTs.toNat [MOD 10 ^ 3] := by
    generalize 180 * s.crkTs.toNat / s.ignTs.toNat = q at hq ⊢
    unfold Nat.ModEq
    omega
  exact decimalDigit_congr (by omega) wrapped

/-- Settles O33: the crank timestamp is the rounded-up one by hypothesis. -/
theorem advanceRoundTrip : Obligations.AdvanceRoundTrip := by
  intro s a _ hip hcp hits hcts
  refine ⟨runConverter s, rfl, ?_⟩
  rw [runConverter_res, hip, hcp]
  exact convertTimestamps_get_of_ceil _ _ hits hcts

/-- Settles O34: RES after CONV is a function of the six items. -/
theorem convKeepsNoState : Obligations.ConvKeepsNoState := by
  intro s u hip hits hcp hcts hparams hdraws
  refine ⟨runConverter s, runConverter u, rfl, rfl, ?_⟩
  rw [runConverter_res, runConverter_res, hip, hits, hcp, hcts, hparams, hdraws]

end Sys2Proof.Machine
end

section
/-! SUPPORT. The family of the MUX unit (42_multiplexer.md): what one tick writes, the refresh sequence and its period,
the position on the select lines, and MS as a count of the ticks. -/
namespace Sys2Proof.Machine

/-! ### One operation of the unit -/

/-- Bit `j` of the mask after a rotation is the bit above it before, bit 6 the lowest (00_scope.md R7). -/
theorem ror7_getLsbD (m : SelectMask) {j : Nat} (hj : j < 7) : (ror7 m).getLsbD j = m.getLsbD ((j + 1) % 7) := by
  rw [ror7, BitVec.getLsbD_or, BitVec.getLsbD_ushiftRight, BitVec.getLsbD_shiftLeft]
  obtain hlow | rfl : j < 6 ∨ j = 6 := by omega
  · simp [hlow, Nat.mod_eq_of_lt (show j + 1 < 7 by omega), Nat.add_comm]
  · simp

theorem refreshTick_ms_toNat (s : State) : (refreshTick s).ms.toNat = (s.ms.toNat + 1) % 2 ^ 16 := by
  rw [refreshTick_eq]
  exact BitVec.toNat_add s.ms 1

/-- Settles O35: RTK as one update, the rotation bit by bit (`refreshTick` is the model's own function). -/
theorem refreshTick_spec : Obligations.RefreshTick := by
  refine fun s => ⟨refreshTick s, rfl, rfl, ?_, fun j hj => ror7_getLsbD s.mask hj, refreshTick_ms_toNat s, ?_⟩
  · have hpos : (refreshTick s).pos = nextPos s.pos := by rw [refreshTick_eq]
    have := s.pos.isLt
    rw [hpos, nextPos_val]
    split <;> omega
  · rw [refreshTick_eq]
    exact ⟨rfl, rfl, rfl⟩

/-- Settles O37: TKRST is that one update (R121). -/
theorem tickerReset : Obligations.TickerReset := fun s => by rw [exec_tkrst, resetTicker]

/-! ### The period of the refresh sequence -/

/-- The position after `n` ticks is `k` exactly when `n` is the distance down to it, modulo 7 (R122). -/
theorem refreshTick_iterate_pos_eq_iff {n : Nat} {s : State} {k : Fin 7} :
    (refreshTick^[n] s).pos = k ↔ n % 7 = (s.pos.val + 7 - k.val) % 7 := by
  have := s.pos.isLt
  rw [Fin.ext_iff, refreshTick_iterate_pos]
  omega

/-- `n` ticks rotate the mask `n` times. -/
theorem refreshTick_iterate_mask (n : Nat) (s : State) : (refreshTick^[n] s).mask = ror7^[n] s.mask :=
  Function.Semiconj.iterate_right (f := State.mask) (fun _ => rfl) n s

theorem refreshTick_iterate_params (n : Nat) (s : State) : (refreshTick^[n] s).params = s.params := by
  induction n generalizing s with
  | zero => rfl
  | succ n ih => exact ih (refreshTick s)

theorem ror7_iterate_getLsbD (n : Nat) (m : SelectMask) {j : Nat} (hj : j < 7) :
    (ror7^[n] m).getLsbD j = m.getLsbD ((j + n) % 7) := by
  induction n generalizing m with
  | zero => rw [Nat.add_zero, Nat.mod_eq_of_lt hj, Function.iterate_zero_apply]
  | succ n ih =>
    rw [Function.iterate_succ_apply, ih, ror7_getLsbD _ (Nat.mod_lt _ (by decide)), Nat.mod_add_mod, Nat.add_assoc]

theorem ror7_iterate_seven (m : SelectMask) : ror7^[7] m = m :=
  BitVec.eq_of_getLsbD_eq fun j hj => by
    rw [ror7_iterate_getLsbD 7 m hj, Nat.add_mod_right, Nat.mod_eq_of_lt hj]

/-- Seven ticks return the position. -/
theorem refreshTick_iterate_seven_pos (s : State) : (refreshTick^[7] s).pos = s.pos :=
  refreshTick_iterate_pos_eq_iff.mpr (by omega)

/-- Seven ticks return the mask. -/
theorem refreshTick_iterate_seven_mask (s : State) : (refreshTick^[7] s).mask = s.mask :=
  (refreshTick_iterate_mask 7 s).trans (ror7_iterate_seven s.mask)

/-- What RTK appends to the output trace: blank, select, pattern (R120). -/
def tickWrites (s : State) : List OutWrite :=
  [.sel (allOff s.params), .sel (driveSelect s.params (ror7 s.mask)), .seg (s.dig.get (nextPos s.pos))]

/-- What `n` RTK append to the output trace. -/
def refreshWrites (n : Nat) (s : State) : List OutWrite :=
  (List.range n).flatMap fun k => tickWrites (refreshTick^[k] s)

theorem refreshTick_trace (s : State) : (refreshTick s).trace = s.trace ++ tickWrites s := by
  rw [refreshTick_eq, tickWrites]

theorem refreshTick_iterate_trace (n : Nat) (s : State) :
    (refreshTick^[n] s).trace = s.trace ++ refreshWrites n s := by
  induction n with
  | zero => simp [refreshWrites]
  | succ n ih =>
    rw [Function.iterate_succ_apply', refreshTick_trace, ih, List.append_assoc]
    simp [refreshWrites, List.range_succ]

theorem refreshWrites_length (n : Nat) (s : State) : (refreshWrites n s).length = 3 * n := by
  simp [refreshWrites, tickWrites, List.length_flatMap, Nat.mul_comm]

/-- RTK number `n + 7` drives the same outputs as RTK number `n` (R122). -/
theorem tickWrites_iterate_add_seven (n : Nat) (s : State) :
    tickWrites (refreshTick^[n + 7] s) = tickWrites (refreshTick^[n] s) := by
  have period : refreshTick^[n + 7] s = refreshTick^[7] (refreshTick^[n] s) := by
    rw [Nat.add_comm, Function.iterate_add_apply]
  rw [period, tickWrites, refreshTick_iterate_seven_pos, refreshTick_iterate_seven_mask, refreshTick_iterate_dig,
    refreshTick_iterate_params, tickWrites]

/-- The writes of a sequence of ticks are the same seven ticks later. -/
theorem refreshWrites_after_seven (n : Nat) (s : State) :
    refreshWrites n (refreshTick^[7] s) = refreshWrites n s :=
  List.flatMap_congr fun k _ => by rw [← Function.iterate_add_apply, tickWrites_iterate_add_seven]

/-- Settles O38: `n` is the distance down to the position, 7 where that is none, and the frame is what seven ticks
write. -/
theorem refreshHasPeriodSeven : Obligations.RefreshHasPeriodSeven := by
  intro s
  refine ⟨fun k => ?_, refreshTick^[7] s, refreshTick^[7] (refreshTick^[7] s), refreshWrites 7 s, ?_⟩
  · refine ⟨(s.pos.val + 6 - k.val) % 7 + 1, _, by omega, by omega, runOps_repeatOp_rtk _ s, ?_, ?_⟩
    · exact refreshTick_iterate_pos_eq_iff.mpr (by omega)
    · intro m u hm hm7 hu hpos
      cases (runOps_repeatOp_rtk m s).symm.trans hu
      have := refreshTick_iterate_pos_eq_iff.mp hpos
      omega
  · refine ⟨runOps_repeatOp_rtk 7 s, refreshTick_iterate_seven_pos s, refreshTick_iterate_seven_mask s,
      refreshTick_iterate_dig 7 s, runOps_repeatOp_rtk 7 _, refreshWrites_length 7 s,
      refreshTick_iterate_trace 7 s, ?_⟩
    rw [refreshTick_iterate_trace 7 (refreshTick^[7] s), refreshWrites_after_seven]

/-! ### The position on the select lines -/

/-- Line `k` of the mask of position `p` is set exactly for `k = p`. -/
theorem getLsbD_one_shiftLeft_iff {p k : Fin 7} :
    ((1 : SelectMask) <<< p.val).getLsbD k.val = true ↔ k = p := by
  revert p k; decide

/-- Settles O41: the invariant gives the lines and MASK, and R26 their levels. -/
theorem exactlyOnePositionSelected : Obligations.ExactlyOnePositionSelected := by
  refine fun s hs => ⟨fun htrace k => ?_, fun htrace k => ?_⟩
  · obtain ⟨-, active, -⟩ := selectLinePolarity s.params s.mask k
    rw [hs.sel_after_tick htrace, active, hs.mask_is_pos, getLsbD_one_shiftLeft_iff]
  · obtain ⟨inactive, -⟩ := selectLinePolarity s.params s.mask k
    rw [hs.sel_before_tick htrace, inactive]

/-! ### The ticker -/

/-- Every operation but TKRST and RST adds to MS the ticks it is: one for RTK, and by R29 none for the others. -/
theorem exec_ms_toNat {i : Instr} {s t : State} (hi : i ≠ .tkrst ∧ i ≠ .rst) (h : exec i s = .next t) :
    t.ms.toNat = (s.ms.toNat + [i].count .rtk) % 2 ^ 16 := by
  by_cases hrtk : i = .rtk
  · subst hrtk
    cases h
    exact refreshTick_ms_toNat s
  · obtain ⟨-, -, -, -, -, -, -, -, -, -, -, hms, -⟩ := onlyOwnersWrite i s t h
    have same : t.ms = s.ms := by_contra fun hne => by simpa [hi, hrtk] using hms hne
    rw [same, List.count_singleton, beq_eq_false_iff_ne.mpr hrtk]
    exact (Nat.mod_eq_of_lt s.ms.isLt).symm

/-- Settles O39, by induction on the sequence. -/
theorem tickerCountsRefreshTicks : Obligations.TickerCountsRefreshTicks := by
  intro ops
  induction ops with
  | nil =>
    intro s t _ h
    cases h
    exact (Nat.mod_eq_of_lt s.ms.isLt).symm
  | cons i ops ih =>
    intro s t hops h
    obtain ⟨hi, hops⟩ := List.forall_mem_cons.mp hops
    obtain ⟨u, hu, ht⟩ := runOps_cons_next.mp h
    rw [ih u t hops ht, exec_ms_toNat hi hu, Nat.mod_add_mod, Nat.add_assoc, ← List.count_append,
      List.singleton_append]

end Sys2Proof.Machine
end

section
/-! SUPPORT. The family of the host port (43_host_port.md): what RD returns by register, what WRDIG and CMT write, which
register numbers and indices are refused, and what CLRP clears. -/
namespace Sys2Proof.Machine

/-! ### RD -/

/-- The register map gives each register at its own number (20_memory.md R41). -/
theorem hostReg?_regNumber (r : HostReg) : hostReg? (regNumber r) = some r := by
  cases r with
  | dig k => revert k; decide
  | res k => revert k; decide
  | _ => rfl

/-- RD of a register's number returns that register (R140). -/
theorem exec_rd_regNumber (r : HostReg) (s : State) :
    exec (.rd (regNumber r)) s = .next (returnData (readHostReg s r) s) := by
  rw [exec, execRd, hostReg?_regNumber]

/-- RD of a number of no register is refused (R140 a). -/
theorem exec_rd_of_reserved {rr : BitVec 8} (h : implementedReg rr = false) (s : State) :
    exec (.rd rr) s = .refused (.reservedRegister rr) := by
  have unmapped : hostReg? rr = none := Option.not_isSome_iff_eq_none.mp (by simp [hostReg?_isSome, h])
  rw [exec, execRd, unmapped]

/-- Where the next operation is RD of a reserved number, the hardware returns 0 (R140 a, D21). -/
theorem hardwareStep_rd_of_reserved {s : State} {rr : BitVec 8} {rest : List Stimulus}
    (hin : s.inputs = .host (encode (.rd rr)) :: rest) (h : implementedReg rr = false) :
    hardwareStep s = returnData 0 { s with inputs := rest } := by
  have fetched : fetchStimulus (.host (encode (.rd rr))) = .op (.rd rr) := fetchStimulus_stimulusOf (i := .rd rr) rfl
  have refused := (step_of_fetchStimulus hin fetched).trans (exec_rd_of_reserved h _)
  rw [hardwareStep, refused]
  exact congrArg (returnData 0) (takeInput_of_inputs hin)

/-- Settles O44, register by register: RD of its number returns it, and `setWidth` is the zero extension of R140. -/
theorem readReturnsRegister : Obligations.ReadReturnsRegister := by
  intro s
  simp only [BitVec.ofNat_toNat]
  exact ⟨exec_rd_regNumber .status s, exec_rd_regNumber .ignTs s, exec_rd_regNumber .crkTs s,
    exec_rd_regNumber .ms s, fun k => exec_rd_regNumber (.dig k) s, fun k => exec_rd_regNumber (.res k) s,
    fun rr h => ⟨exec_rd_of_reserved h s, fun _ hin => hardwareStep_rd_of_reserved hin h⟩⟩

/-! ### WRDIG and CMT -/

theorem writeDig_dig_get_self (k : Fin 7) (b : Byte) (s : State) : (writeDig k b s).dig.get k = b := by
  simp [Vector.get_eq_getElem]

theorem writeDig_dig_get_of_ne {j k : Fin 7} (h : j.val ≠ k.val) (b : Byte) (s : State) :
    (writeDig k b s).dig.get j = s.dig.get j := by
  simp [Vector.get_eq_getElem, h.symm]

theorem exec_wrdig_of_gt {i : BitVec 4} (h : 7 ≤ i.toNat) (dd : Byte) (s : State) :
    exec (.wrdig i dd) s = .refused (.reservedWord .index) := by
  rw [exec, execWrdig, position?_of_gt h]

theorem exec_cmt_of_gt {i : BitVec 4} (h : 7 ≤ i.toNat) (s : State) :
    exec (.cmt i) s = .refused (.reservedWord .index) := by
  rw [exec, execCmt, position?_of_gt h]

/-- Settles O46: WRDIG is a write of DIG at the position its index names, and an index past 6 names none. -/
theorem writeDigit : Obligations.WriteDigit := fun s _ dd =>
  ⟨fun h => ⟨_, exec_wrdig_of_le (Nat.le_of_lt_succ h) dd s, rfl, writeDig_dig_get_self _ dd s,
    fun _ hne => writeDig_dig_get_of_ne hne dd s⟩, fun h => exec_wrdig_of_gt h dd s⟩

/-- Settles O47: CMT is the same write, of the pattern of RES at that position. -/
theorem commitDigit : Obligations.CommitDigit := fun s _ =>
  ⟨fun h => ⟨_, exec_cmt_of_le (Nat.le_of_lt_succ h) s, rfl, writeDig_dig_get_self _ _ s,
    fun _ hne => writeDig_dig_get_of_ne hne _ s⟩, fun h => exec_cmt_of_gt h s⟩

/-! ### CLRP -/

/-- Settles O48: CLRP is that one update (`clearPending` is the model's own function). -/
theorem clearPending_spec : Obligations.ClearPending := fun s => by rw [exec_clrp, clearPending]

end Sys2Proof.Machine
end

section
/-! SUPPORT. The family of the exceptions (60_exceptions.md): every operation completes, and what a word on the host port
can reach. -/
namespace Sys2Proof.Machine

/-! ### Completion -/

/-- Settles O9: there is no fault to answer with, and RD of a number of no register is the one refusal of a well-formed
operation. -/
theorem everyOperationCompletes : Obligations.EveryOperationCompletes :=
  ⟨fun _ _ f => (nomatch f), fun _ s hwf hrd => exec_completes hwf hrd s, fun _ s h => exec_rd_of_reserved h s⟩

/-! ### The host port -/

/-- The host port takes a word as the operation it decodes to, and only one of the host class (R66). -/
theorem decode_of_fetchHostWord_eq_op {w : OpWord} {i : Instr} (h : fetchHostWord w = .op i) :
    decode w = .ok i ∧ i.isHost = true := by
  rw [fetchHostWord] at h
  split at h
  · cases h
  next hw =>
    split at h
    next host => cases h; exact ⟨hw, host⟩
    · cases h

theorem fetchHostWord_ne_idle (w : OpWord) : fetchHostWord w ≠ .idle := by
  rw [fetchHostWord]
  split
  · simp
  · split <;> simp

/-- A step that completes with a host word next ran the operation of that word, one of the host class. -/
theorem step_next_of_host {s t : State} {w : OpWord} {rest : List Stimulus} (hin : s.inputs = .host w :: rest)
    (h : step s = .next t) :
    ∃ i, decode w = .ok i ∧ i.isHost = true ∧ exec i { s with inputs := rest } = .next t := by
  have fetched : fetch s = fetchHostWord w := fetch_of_inputs hin
  obtain ⟨idle, -⟩ | ⟨i, hop, hexec⟩ := step_next_cases h
  · exact absurd (fetched ▸ idle) (fetchHostWord_ne_idle w)
  · obtain ⟨hw, host⟩ := decode_of_fetchHostWord_eq_op (fetched ▸ hop)
    exact ⟨i, hw, host, takeInput_of_inputs hin ▸ hexec⟩

/-- Settles O54: the word's operation is one of the six of the host class, each an update of the items R167 grants it. -/
theorem hostAccessRights : Obligations.HostAccessRights := by
  intro s t w rest hin h
  obtain ⟨i, hw, host, hexec⟩ := step_next_of_host hin h
  obtain ⟨rr, r, rfl, -, rfl⟩ | ⟨a, dd, k, rfl, -, rfl⟩ | ⟨a, k, rfl, -, rfl⟩ | ⟨rfl, rfl⟩ | ⟨rfl, rfl⟩ | ⟨rfl, rfl⟩
    | ⟨rfl, -⟩ | ⟨rfl, -⟩ | ⟨rfl, -⟩ | ⟨rfl, -⟩ | ⟨rfl, -⟩ | ⟨rfl, -⟩ := exec_next_cases hexec
  · simp -- RD
  · simp [hw] -- WRDIG
  · simp [hw] -- CMT
  · simp [hw, runConverter]
  · simp [clearPending]
  · simp [resetTicker]
  -- the pin events are no host operations
  all_goals cases host

end Sys2Proof.Machine
end

section
/-! SUPPORT. The family of reset (70_reset_and_hazards.md): RST from any state, the first operations after it, and what
CLRP loses. -/
namespace Sys2Proof.Machine

/-! ### RST and the first operations after it -/

/-- Settles O11 (`resetBlock` is the model's own function). -/
theorem rstRestoresReset : Obligations.RstRestoresReset := fun s => ⟨resetBlock s, exec_rst s, resetBlock_eq s⟩

/-- Settles O13: the position comes down from 0 to 6, where DIG still holds the dash; the display invariant gives the
lines; and there is no ignition event to convert. -/
theorem firstStepsAfterReset : Obligations.FirstStepsAfterReset := by
  intro p
  have displayed : DisplayInv (refreshTick (State.resetWith p)) := displayInv_refreshTick (displayInv_resetWith p)
  obtain ⟨one_selected, -⟩ := exactlyOnePositionSelected _ displayed
  refine ⟨⟨_, exec_rtk _, rfl, ?_, one_selected (by simp [refreshTick_trace, tickWrites])⟩,
    _, exec_conv _, runConverter_res_of_no_ignition rfl⟩
  rw [refreshTick_eq]
  exact Vector.getElem_replicate (nextPos 0).isLt

/-! ### Events cleared before they were converted -/

/-- What CLRP leaves of an ignition captured at `ts` (R143): the timestamp, and no event. -/
def NoIgnitionPending (ts : Timestamp) (s : State) : Prop := s.ignPend = false ∧ s.ignTs = ts

/-- By R29 none but IGN and RST captures an ignition, and CLRP, the one other writer of the pending flag, clears it. -/
theorem noIgnitionPending_exec {ts : Timestamp} {i : Instr} {s t : State} (hs : NoIgnitionPending ts s)
    (hi : i ≠ .ign ∧ i ≠ .rst) (h : exec i s = .next t) : NoIgnitionPending ts t := by
  obtain ⟨hpend, hts⟩ := hs
  obtain ⟨-, -, -, ts_writers, pend_writers, -⟩ := onlyOwnersWrite i s t h
  have same_ts : t.ignTs = s.ignTs := by_contra fun hne => by simpa [hi] using ts_writers hne
  refine ⟨?_, same_ts.trans hts⟩
  by_cases hclrp : i = .clrp
  · subst hclrp
    cases h
    rfl
  · have same_pend : t.ignPend = s.ignPend := by_contra fun hne => by simpa [hi, hclrp] using pend_writers hne
    exact same_pend.trans hpend

/-- Settles O49: CLRP leaves no event pending, the sequence brings no ignition event back, and under SUPPRESS no crank
event; CONV then finds nothing to convert. -/
theorem clearedEventsAreLost : Obligations.ClearedEventsAreLost := by
  intro s t ops hops h
  obtain ⟨u, hclrp, hconv⟩ := runOps_append_next.mp h
  have hu : runOps ops (clearPending s) = .next u := hclrp
  obtain rfl : runConverter u = t := Host.Outcome.next.inj hconv
  have cleared : NoIgnitionPending s.ignTs (clearPending s) := ⟨rfl, rfl⟩
  obtain ⟨hpend, hts⟩ := runOps_keeps (fun i hi _ _ hv hvw => noIgnitionPending_exec hv (hops i hi) hvw) cleared hu
  refine ⟨runConverter_res_of_no_ignition hpend, hts, fun hsup => ?_⟩
  obtain ⟨-, hcrk, no_new⟩ := oneCrankBetweenIgnitions ops (clearPending s) u hsup hops hu
  exact ⟨Bool.eq_false_iff.mpr (mt no_new Bool.false_ne_true), hcrk⟩

end Sys2Proof.Machine
end

section
/-! SUPPORT. The model's own fields (notes/assumptions/2.md, 3.md, 5.md, 6.md): a step with no input left, and what RST
leaves that is no state of the block. -/
namespace Sys2Proof.Machine

/-- With no input left there is nothing to fetch. -/
theorem fetch_of_no_inputs {s : State} (h : s.inputs = []) : fetch s = .idle := by rw [fetch, h]

/-- Settles O7: nothing is fetched, and the step is idle. -/
theorem noInputLeavesTheState : Obligations.NoInputLeavesTheState := fun _ h => step_of_fetch_idle (fetch_of_no_inputs h)

/-- Settles O12: the reset state with these three fields of the state before, by `resetBlock_eq`. -/
theorem rstLeavesTheModelsOwnFields : Obligations.RstLeavesTheModelsOwnFields := by
  intro s
  refine ⟨resetBlock s, exec_rst s, ?_⟩
  rw [resetBlock_eq]
  exact ⟨rfl, rfl, rfl⟩

end Sys2Proof.Machine
end
